-- ==== Sys2Proof/Word.lean ====
section
/-! DEFINITION. The Word type: a signed integer of one of four widths (00_scope.md R6, R7, R9). -/

namespace Sys2Proof

/-- The width `W` of a Word, in bits: one of the four the spec admits (R6). -/
inductive Width where
  | w16
  | w32
  | w64
  | w128
  deriving DecidableEq, Repr

/-- The number of bits of a width (R6). -/
def Width.bits : Width → Nat
  | .w16 => 16
  | .w32 => 32
  | .w64 => 64
  | .w128 => 128

/-- A Word is a mathematical integer, never sliced into bits (R9).
That it lies in `[WMIN, WMAX]` is `Width.fits`, an invariant every step keeps (assumption 2). -/
abbrev Word := Int

/-- `2^(W-1)`, the bound of both ends of the Word range (R7). -/
def Width.half (w : Width) : Int := ((2 ^ (w.bits - 1) : Nat) : Int)

/-- `WMIN = -2^(W-1)` (R7; PRESUMED two's complement, safe in range claims, assumption 2). -/
def Width.wmin (w : Width) : Int := -w.half

/-- `WMAX = 2^(W-1) - 1` (R7; PRESUMED two's complement, assumption 2). -/
def Width.wmax (w : Width) : Int := w.half - 1

/-- Is this integer a Word of width `w` (R7)? -/
def Width.fits (w : Width) (r : Int) : Bool := decide (w.wmin ≤ r) && decide (r ≤ w.wmax)

/-- `ZERO` of R15. -/
abbrev zero : Int := 0

/-- `ONE` of R15. -/
abbrev one : Int := 1

end Sys2Proof
end

