-- ==== Sys2Proof/Config.lean ====
section
/-! DEFINITION. The implementation parameters of 00_scope.md R6, fixed for the lifetime of one machine (R29). -/

namespace Sys2Proof

/-- Which memory backend holds the overlay (R6 `BACKEND`; 92_eei_decisions.md D10). -/
inductive Backend where
  | dense
  | sparse
  deriving DecidableEq, Repr

/-- What a sum or product outside the Word range does (R6 `OVERFLOW`, R14; D2). -/
inductive Overflow where
  | fault
  | wrap
  deriving DecidableEq, Repr

/-- The parameters of R6.
The spec leaves each of them open as an argument of the model, so a machine carries its own `Config`
and every statement ranges over all of them (assumption 1). -/
structure Config where
  /-- `W`, the bit width of a Word. -/
  width    : Width
  /-- `BACKEND`, dense or sparse. -/
  backend  : Backend
  /-- `OVERFLOW`, fault or wrap. -/
  overflow : Overflow
  /-- `MEM_LIMIT`: an address at or above it faults (R44, D8). -/
  memLimit : Nat
  /-- `TRACE`: per-tick tracing, without architectural effect (R162, D25). -/
  trace    : Bool
  deriving DecidableEq, Repr

/-- R6 asks `MEM_LIMIT` to be greater than 0; every other parameter is free in its type. -/
def Config.wf (c : Config) : Bool := decide (0 < c.memLimit)

/-- The parameters `State.reset` is built with: those of the conventions of 95_test_vectors.md
(`W = 64`, `OVERFLOW = Fault`, `MEM_LIMIT = 2^64`), the sparse backend and no tracing.
DESIGN CHOICE, unsafe for a statement about `State.reset` alone: R6 leaves all five open (assumption 1). -/
def Config.standard : Config :=
  { width := .w64, backend := .sparse, overflow := .fault, memLimit := 2 ^ 64, trace := false }

end Sys2Proof
end

