-- ==== Sys2Proof/Syntax.lean ====
section
/-! DEFINITION. Operands and the decoded instruction (30_encoding.md R73, R80): one constructor per row of
spec/opcode_table.json. -/

namespace Sys2Proof

/-- An operand: its kind and the raw parameter Word (R73, R77). -/
inductive Operand where
  /-- Mode 1: the Word itself. -/
  | immediate (w : Word)
  /-- Mode 0: the Word is an address. -/
  | positional (w : Word)
  /-- Mode 2: the Word is an offset from the relative base. -/
  | relative (w : Word)
  deriving DecidableEq, Repr

/-- The raw parameter Word of an operand (R77). -/
def Operand.raw : Operand → Word
  | .immediate w => w
  | .positional w => w
  | .relative w => w

/-- A decoded instruction with its operands as decoded (R80; the roles are those of R75). -/
inductive Instr where
  /-- `Add a, b, c` (R100). -/
  | add (a b c : Operand)
  /-- `Mul a, b, c` (R101). -/
  | mul (a b c : Operand)
  /-- `In a` (R110). -/
  | inp (a : Operand)
  /-- `Out a` (R111). -/
  | out (a : Operand)
  /-- `JumpIfTrue a, b` (R120). -/
  | jumpIfTrue (a b : Operand)
  /-- `JumpIfFalse a, b` (R121). -/
  | jumpIfFalse (a b : Operand)
  /-- `LessThan a, b, c` (R130). -/
  | lessThan (a b c : Operand)
  /-- `Equal a, b, c` (R131). -/
  | equal (a b c : Operand)
  /-- `AdjustRelativeBase a` (R140). -/
  | adjustRelativeBase (a : Operand)
  /-- `Halt` (R141). -/
  | halt
  deriving DecidableEq, Repr

/-- The operands in parameter order (R65). -/
def Instr.operands : Instr → List Operand
  | .add a b c => [a, b, c]
  | .mul a b c => [a, b, c]
  | .inp a => [a]
  | .out a => [a]
  | .jumpIfTrue a b => [a, b]
  | .jumpIfFalse a b => [a, b]
  | .lessThan a b c => [a, b, c]
  | .equal a b c => [a, b, c]
  | .adjustRelativeBase a => [a]
  | .halt => []

/-- Instruction length in Words (R78). -/
def Instr.length : Instr → Nat
  | .add _ _ _ => 4
  | .mul _ _ _ => 4
  | .inp _ => 2
  | .out _ => 2
  | .jumpIfTrue _ _ => 3
  | .jumpIfFalse _ _ => 3
  | .lessThan _ _ _ => 4
  | .equal _ _ _ => 4
  | .adjustRelativeBase _ => 2
  | .halt => 1

end Sys2Proof
end

