-- ==== Sys2Proof/Machine/State.lean ====
section
/-! DEFINITION. The state of one machine instance (10_state.md R20 to R28), its configuration (R29), the reasons a step
can stop, and the state after construction and reset (R35). -/

namespace Sys2Proof.Machine

/-- The fault causes of 60_exceptions.md R151. -/
inductive Cause where
  /-- Code 1: the instruction word is negative, at least 100000, or has an unknown base opcode. -/
  | badOpcode
  /-- Code 2: a malformed mode digit, or a mode digit set for a parameter the instruction lacks. -/
  | badMode
  /-- Code 3: an address that is negative or at least `MEM_LIMIT`. -/
  | badAddress
  /-- Code 4: a Word sum or product outside `[WMIN, WMAX]` under `OVERFLOW = Fault`. -/
  | arithOverflow
  deriving DecidableEq, Repr

/-- What `raise Fault(cause, info)` names (R16): the cause and the offending value. -/
structure Trap where
  cause : Cause
  info  : Int
  deriving DecidableEq, Repr

/-- The fault record `(cause, at, info)` of R152; the field `loc` is its `at`. -/
structure FaultRecord where
  cause : Cause
  /-- The address of the instruction word of the tick that faulted, `none` for `peek` and `poke`. -/
  loc   : Option Nat
  info  : Int
  deriving DecidableEq, Repr

/-- The value `run()` returns when it suspends (R157). -/
inductive Interrupt where
  | input
  | output (v : Word)
  | halt
  deriving DecidableEq, Repr

/-- The overlay (R21): a partial map from address to Word, "unset" at every address not listed.
`cells` lists the set addresses in strictly rising order, so equal overlays are equal data (assumption 13).
`len` is the current length `L` of the dense backend (R41, R34); the sparse backend leaves it alone. -/
structure Memory where
  cells : List (Nat × Word)
  len   : Nat
  deriving DecidableEq, Repr

/-- One machine instance (R20 to R29). -/
structure State where
  /-- `W`, `BACKEND`, `OVERFLOW`, `MEM_LIMIT`, `TRACE` (R6, R29): no operation changes it (assumption 1). -/
  cfg      : Config
  /-- The program image (R20): immutable; its length is `N`, which is also the backend's capacity (R43,
  assumptions 14 and 26). `State.reset` has none (assumption 12). -/
  image    : List Word
  /-- The overlay (R21). -/
  overlay  : Memory
  /-- The program counter (R22): a natural number that does not wrap (D14, assumption 22). -/
  pc       : Nat
  /-- The relative base (R23). -/
  rb       : Word
  /-- The interrupt flag "awaiting input" (R24). -/
  fAwaitIn : Bool
  /-- The interrupt flag "has output" (R24). -/
  fHasOut  : Bool
  /-- The interrupt flag "halted" (R24). -/
  fHalted  : Bool
  /-- The input register (R25). -/
  inReg    : Option Word
  /-- The output register (R26). -/
  outReg   : Option Word
  /-- The pending instruction (R27; `none` at reset, D19, assumption 27). -/
  cur      : Option Instr
  /-- The fault state (R28). -/
  fault    : Option FaultRecord
  /-- What `run()` returned to the host at the end of the last step, `none` while its loop goes on (R157,
  R163): the model's own field for the return value of `run()`. DESIGN CHOICE, safe (assumption 10). -/
  ret      : Option Interrupt
  deriving DecidableEq, Repr

/-- Why a step answers no next state. No instruction's meaning raises one of these: a fault of R151 is a
next state whose `fault` is written (R150, assumption 8). -/
inductive Fault where
  /-- Raised by `step` on a machine whose `fault` is `some r`: "the machine has no further step" (R150).
  Safe: the source's process has ended. -/
  | aborted (r : FaultRecord)
  /-- Raised by `tick` when a flag is pending and `cur` is `none`. R160 derives that no machine is ever in
  such a state, and gives no effect for it. Safe (assumption 11). -/
  | noPendingInstruction
  /-- Raised at the end of a tick that leaves `fHasOut` set and `outReg` unset. R163 derives that no machine
  is ever in such a state, and gives no effect for it. Safe (assumption 11). -/
  | noOutputWord
  deriving DecidableEq, Repr

/-- Refusals: none of the ten instructions is refused. -/
inductive Refusal where
  /-- Raised by an arm of `exec` for an instruction without a meaning; no arm of this model does. Safe. -/
  | notModelled (mnemonic : String)
  deriving DecidableEq, Repr

/-- The answer of a meaning or of a step. -/
abbrev Answer := Host.Outcome State Fault Refusal

/-- Replace the overlay. -/
def State.setOverlay (s : State) (v : Memory) : State := { s with overlay := v }
/-- `pc <- v`. -/
def State.setPc (s : State) (v : Nat) : State := { s with pc := v }
/-- `rb <- v`. -/
def State.setRb (s : State) (v : Word) : State := { s with rb := v }
/-- `fAwaitIn <- v`. -/
def State.setAwaitIn (s : State) (v : Bool) : State := { s with fAwaitIn := v }
/-- `fHasOut <- v`. -/
def State.setHasOut (s : State) (v : Bool) : State := { s with fHasOut := v }
/-- `fHalted <- v`. -/
def State.setHalted (s : State) (v : Bool) : State := { s with fHalted := v }
/-- `inReg <- v`. -/
def State.setInReg (s : State) (v : Option Word) : State := { s with inReg := v }
/-- `outReg <- v`. -/
def State.setOutReg (s : State) (v : Option Word) : State := { s with outReg := v }
/-- `cur <- v`. -/
def State.setCur (s : State) (v : Option Instr) : State := { s with cur := v }
/-- `fault <- v`. -/
def State.setFault (s : State) (v : Option FaultRecord) : State := { s with fault := v }
/-- Record what `run()` returns. -/
def State.setRet (s : State) (v : Option Interrupt) : State := { s with ret := v }

/-- The construction state over a parsed image (R35, R190): the overlay unset everywhere, of length `N`. -/
def State.initial (cfg : Config) (image : List Word) : State :=
  { cfg := cfg
    image := image
    overlay := { cells := [], len := image.length }
    pc := 0
    rb := zero
    fAwaitIn := false
    fHasOut := false
    fHalted := false
    inReg := none
    outReg := none
    cur := none
    fault := none
    ret := none }

/-- The machine right after reset (R35, R192) with no program: the image is empty, as `new("")` builds it.
A program comes from outside the machine, as the text given to `new` (assumption 12). -/
def State.reset : State := State.initial Config.standard []

end Sys2Proof.Machine
end

