-- ==== Sys2Proof/Machine/Alu.lean ====
section
/-! DEFINITION. The Word primitives of 00_scope.md R13 to R15: sums, products, comparisons and the address view. Words
come in as the integers they are, the exact result is formed, and it is narrowed to a Word at the end. -/

namespace Sys2Proof.Machine

/-- The unique Word of width `w` congruent to `r` modulo `2^W` (R14, `OVERFLOW = Wrap`). -/
def wrapWord (w : Width) (r : Int) : Word := (r + w.half) % (2 * w.half) - w.half

/-- The exact result `r` as a Word, or what `OVERFLOW` says when it is none (R14, D2; assumption 3).
The trap's value is the exact result (R152). -/
def narrow (cfg : Config) (r : Int) : Except Trap Word :=
  if cfg.width.fits r then .ok r
  else
    match cfg.overflow with
    | .fault => .error { cause := .arithOverflow, info := r }
    | .wrap => .ok (wrapWord cfg.width r)

/-- `wadd(x, y)` (R14). -/
def wadd (cfg : Config) (x y : Int) : Except Trap Word := narrow cfg (x + y)

/-- `wmul(x, y)` (R14). -/
def wmul (cfg : Config) (x y : Int) : Except Trap Word := narrow cfg (x * y)

/-- `wlt(x, y)`, signed (R15). -/
def wlt (x y : Int) : Bool := decide (x < y)

/-- `weq(x, y)` (R15). -/
def weq (x y : Int) : Bool := decide (x = y)

/-- `if c then ONE else ZERO` (R130, R131). -/
def wordOfBool (c : Bool) : Word := if c then one else zero

/-- `AddrOf(w)` (R13, R44; D8, assumption 6): a negative Word or one at least `MEM_LIMIT` is no address. -/
def addrOf (cfg : Config) (w : Int) : Except Trap Nat :=
  if w < 0 ∨ (cfg.memLimit : Int) ≤ w then .error { cause := .badAddress, info := w }
  else .ok w.toNat

/-- The cause codes of R151. -/
def Cause.code : Cause → Nat
  | .badOpcode => 1
  | .badMode => 2
  | .badAddress => 3
  | .arithOverflow => 4

end Sys2Proof.Machine
end

