-- ==== Sys2Proof/Machine/Ops.lean ====
section
/-! DEFINITION. The shared operations over State: the two backends and the combined address space (20_memory.md R40 to
R48), raising a fault (R16, R150, R152), and the suspension of `run()` (60_exceptions.md R163, R173). -/

namespace Sys2Proof.Machine

/-- The Word listed at an address, `none` ("unset") where none is: what an unlisted address of the overlay
reads as, in the one place that says it (R21, R40). -/
def cellsGet : List (Nat × Word) → Nat → Option Word
  | [], _ => none
  | (b, w) :: r, a => if b = a then some w else cellsGet r a

/-- Set the Word at an address of a rising list, keeping it rising. -/
def cellsPut : List (Nat × Word) → Nat → Word → List (Nat × Word)
  | [], a, v => [(a, v)]
  | (b, w) :: r, a, v =>
    if a < b then (a, v) :: (b, w) :: r
    else if a = b then (a, v) :: r
    else (b, w) :: cellsPut r a v

/-- Every address of the list is above `a` and the addresses rise strictly. -/
def risingFrom : List (Nat × Word) → Nat → Bool
  | [], _ => true
  | (b, _) :: r, a => decide (a < b) && risingFrom r b

/-- The canonical form of the overlay: its addresses rise strictly (assumption 13).
No entry can equal what an unlisted address reads as, since that is "unset" and an entry is a Word. -/
def Memory.wf (m : Memory) : Bool :=
  match m.cells with
  | [] => true
  | (b, _) :: r => risingFrom r b

/-- The dense backend grows to hold address `a`: `if a >= L then L <- a + 1`, the new slots unset (R41). -/
def Memory.grow (m : Memory) (a : Nat) : Memory :=
  if m.len ≤ a then { m with len := a + 1 } else m

/-- `overlay.read(a)` with the overlay after it (R41, R42); `cap` is the capacity `N` (R43). -/
def backendRead (b : Backend) (cap : Nat) (m : Memory) (a : Nat) : Option Word × Memory :=
  match b with
  | .dense => (cellsGet m.cells a, m.grow a)
  | .sparse =>
    match cellsGet m.cells a with
    | some v => (some v, m)
    | none => if cap ≤ a then (some zero, m) else (none, m)

/-- `overlay.write(a, v)` (R41, R42). -/
def backendWrite (b : Backend) (m : Memory) (a : Nat) (v : Word) : Memory :=
  match b with
  | .dense => { m.grow a with cells := cellsPut m.cells a v }
  | .sparse => { m with cells := cellsPut m.cells a v }

/-- `overlay.reset()` (R41, R42): every slot unset, and the dense length back to the capacity. -/
def backendReset (b : Backend) (cap : Nat) (m : Memory) : Memory :=
  match b with
  | .dense => { cells := [], len := cap }
  | .sparse => { m with cells := [] }

/-- The result of an operation that may raise a fault: a value, or a trap, each with the state reached.
The writes made before a trap stay in that state (R153; D28, assumption 24). -/
inductive Res (α : Type) where
  | ok (v : α) (s : State)
  | raise (t : Trap) (s : State)
  deriving DecidableEq, Repr

/-- Go on with the value and the state, or pass the trap on: no later write happens (R16). -/
def Res.bind {α β : Type} (r : Res α) (f : α → State → Res β) : Res β :=
  match r with
  | .ok v s => f v s
  | .raise t s => .raise t s

/-- A primitive that reads no state, run in a state. -/
def liftTrap {α : Type} (e : Except Trap α) (s : State) : Res α :=
  match e with
  | .ok v => .ok v s
  | .error t => .raise t s

/-- The value of the combined address space at `a` (R47): the overlay's, else the image's, else `ZERO` (D9,
assumption 7). -/
def State.wordAt (s : State) (a : Nat) : Word :=
  match (backendRead s.cfg.backend s.image.length s.overlay a).1 with
  | some v => v
  | none => if a < s.image.length then s.image.getD a zero else zero

/-- `MemRead(a)` (R12, R44, R47). -/
def memRead (a : Nat) (s : State) : Res Word :=
  if a < s.cfg.memLimit then
    .ok (s.wordAt a) (s.setOverlay (backendRead s.cfg.backend s.image.length s.overlay a).2)
  else .raise { cause := .badAddress, info := a } s

/-- `MemWrite(a, v)` (R12, R44, R48). -/
def memWrite (a : Nat) (v : Word) (s : State) : Res Unit :=
  if a < s.cfg.memLimit then .ok () (s.setOverlay (backendWrite s.cfg.backend s.overlay a v))
  else .raise { cause := .badAddress, info := a } s

/-- Enter the fault state (R16, R150): `fault <- some (cause, at, info)` (R152), and nothing else. -/
def takeFault (loc : Option Nat) (t : Trap) (s : State) : State :=
  s.setFault (some { cause := t.cause, loc := loc, info := t.info })

/-- The address `p0` of the instruction word of an instruction that is executing: decode left `pc` behind the
instruction (R22, R84), and no meaning raises a fault after it wrote `pc`. DEDUCED, safe (assumption 9). -/
def instrAddr (i : Instr) (s : State) : Nat := s.pc - i.length

/-- End of a meaning: the state reached, or the fault state with the record of R152. `s` is the state the
meaning began in. -/
def conclude (i : Instr) (s : State) (r : Res Unit) : Answer :=
  match r with
  | .ok _ t => .next t
  | .raise trap t => .next (takeFault (some (instrAddr i s)) trap t)

/-- The end of one pass of the loop of `run()` after a tick that did not fault (R163; D18, assumption 17): the three tests in
their order, the hand-over of an output (R165), and what `run()` returns to the host (R173). Coming back from
a suspension is only the next `run()` (R174), so the next step. -/
def suspend (s : State) : Answer :=
  if s.fHalted then .next (s.setRet (some .halt))
  else if s.fAwaitIn then .next (s.setRet (some .input))
  else if s.fHasOut then
    match s.outReg with
    | some v => .next (((s.setOutReg none).setHasOut false).setRet (some (.output v)))
    | none => .fault .noOutputWord
  else .next (s.setRet none)

/-- The end of a step: a tick that faulted ends `run()` without a result (R150), any other one goes through
the tests of `run()`. -/
def endPass (s : State) : Answer :=
  match s.fault with
  | some _ => .next (s.setRet none)
  | none => suspend s

end Sys2Proof.Machine
end

