-- ==== Sys2Proof/Machine/Operands.lean ====
section
/-! DEFINITION. The memory address translator and operand access (20_memory.md R45, R46), every operand kind. -/

namespace Sys2Proof.Machine

/-- `EA(Positional(w))` (R45). -/
def eaPositional (s : State) (w : Word) : Except Trap Nat := addrOf s.cfg w

/-- `EA(Relative(w))` (R45; D13, assumption 23): a Word sum with the `rb` of the moment, then the address view. -/
def eaRelative (s : State) (w : Word) : Except Trap Nat :=
  match wadd s.cfg s.rb w with
  | .ok x => addrOf s.cfg x
  | .error t => .error t

/-- The effective address of an operand (R45): an `Immediate` operand has none. -/
def ea (s : State) : Operand → Except Trap (Option Nat)
  | .immediate _ => .ok none
  | .positional w => (eaPositional s w).map some
  | .relative w => (eaRelative s w).map some

/-- `ReadOp` (R46). -/
def readOp (o : Operand) (s : State) : Res Word :=
  match o with
  | .immediate w => .ok w s
  | .positional w => (liftTrap (eaPositional s w) s).bind memRead
  | .relative w => (liftTrap (eaRelative s w) s).bind memRead

/-- `WriteOp` (R46, R76): the write to an `Immediate` operand has no effect. -/
def writeOp (o : Operand) (v : Word) (s : State) : Res Unit :=
  match o with
  | .immediate _ => .ok () s
  | .positional w => (liftTrap (eaPositional s w) s).bind fun a t => memWrite a v t
  | .relative w => (liftTrap (eaRelative s w) s).bind fun a t => memWrite a v t

/-- The shape of the four instructions of two sources and a destination (R100, R101, R130, R131): parameter 1,
parameter 2, the result, then the destination (D30, assumption 17). -/
def twoSources (f : Config → Int → Int → Except Trap Word) (a b c : Operand) (s : State) : Res Unit :=
  (readOp a s).bind fun x s1 =>
  (readOp b s1).bind fun y s2 =>
  (liftTrap (f s2.cfg x y) s2).bind fun r s3 =>
  writeOp c r s3

end Sys2Proof.Machine
end

