-- ==== Sys2Proof/Machine/Arithmetic.lean ====
section
/-! DEFINITION. `Add` and `Mul` (40_arithmetic.md). -/

namespace Sys2Proof.Machine

/-- `Add a, b, c` (R100). -/
def execAdd (a b c : Operand) (s : State) : Answer :=
  conclude (.add a b c) s (twoSources wadd a b c s)

/-- `Mul a, b, c` (R101). -/
def execMul (a b c : Operand) (s : State) : Answer :=
  conclude (.mul a b c) s (twoSources wmul a b c s)

end Sys2Proof.Machine
end

