-- ==== Sys2Proof/Machine/Compare.lean ====
section
/-! DEFINITION. `LessThan` and `Equal` (43_compare.md). -/

namespace Sys2Proof.Machine

/-- `LessThan a, b, c` (R130): the comparison is signed and never faults. -/
def execLessThan (a b c : Operand) (s : State) : Answer :=
  conclude (.lessThan a b c) s (twoSources (fun _ x y => .ok (wordOfBool (wlt x y))) a b c s)

/-- `Equal a, b, c` (R131). -/
def execEqual (a b c : Operand) (s : State) : Answer :=
  conclude (.equal a b c) s (twoSources (fun _ x y => .ok (wordOfBool (weq x y))) a b c s)

end Sys2Proof.Machine
end

