-- ==== Sys2Proof/Machine/Io.lean ====
section
/-! DEFINITION. `In` and `Out` (41_io.md). -/

namespace Sys2Proof.Machine

/-- `In a` (R110): with a Word present it is consumed, the flag cleared, and then the destination written; with
none the instruction has no effect and stays pending. -/
def execIn (a : Operand) (s : State) : Answer :=
  match s.inReg with
  | some v => conclude (.inp a) s (writeOp a v ((s.setInReg none).setAwaitIn false))
  | none => .next s

/-- `Out a` (R111). -/
def execOut (a : Operand) (s : State) : Answer :=
  conclude (.out a) s ((readOp a s).bind fun v t => .ok () (t.setOutReg (some v)))

end Sys2Proof.Machine
end

