-- ==== Sys2Proof/Machine/Jumps.lean ====
section
/-! DEFINITION. `JumpIfTrue` and `JumpIfFalse` (42_jumps.md). -/

namespace Sys2Proof.Machine

/-- Both operands are read whatever the condition; the target is converted with `AddrOf` only when the jump is
taken (R120, R121; D11, assumption 18). -/
def jumpWhen (taken : Int → Bool) (a b : Operand) (s : State) : Res Unit :=
  (readOp a s).bind fun x s1 =>
  (readOp b s1).bind fun t s2 =>
  if taken x then (liftTrap (addrOf s2.cfg t) s2).bind fun p s3 => .ok () (s3.setPc p)
  else .ok () s2

/-- `JumpIfTrue a, b` (R120): taken when `a` is not 0. -/
def execJumpIfTrue (a b : Operand) (s : State) : Answer :=
  conclude (.jumpIfTrue a b) s (jumpWhen (fun x => !weq x zero) a b s)

/-- `JumpIfFalse a, b` (R121): taken when `a` is 0. -/
def execJumpIfFalse (a b : Operand) (s : State) : Answer :=
  conclude (.jumpIfFalse a b) s (jumpWhen (fun x => weq x zero) a b s)

end Sys2Proof.Machine
end

