-- ==== Sys2Proof/Machine/System.lean ====
section
/-! DEFINITION. `AdjustRelativeBase` and `Halt` (44_system.md). -/

namespace Sys2Proof.Machine

/-- `AdjustRelativeBase a` (R140): the operand is read with the old `rb`. -/
def execAdjustRelativeBase (a : Operand) (s : State) : Answer :=
  conclude (.adjustRelativeBase a) s
    ((readOp a s).bind fun x s1 =>
     (liftTrap (wadd s1.cfg s1.rb x) s1).bind fun r s2 => .ok () (s2.setRb r))

/-- `Halt` (R141): the flag is already set by decode; the write is idempotent. -/
def execHalt (s : State) : Answer := .next (s.setHalted true)

end Sys2Proof.Machine
end

