-- ==== Sys2Proof/Decode.lean ====
section
/-! DEFINITION. The decoder of 30_encoding.md, total on every sequence of Words, and the encoder written from the same
rules. The instruction word is read by decimal digits (R10, R66), never by bits. -/

namespace Sys2Proof

/-- `digit_k(n) = (n div 10^k) mod 10` (R10). -/
def digit (k n : Nat) : Nat := n / 10 ^ k % 10

/-- The three addressing modes a mode digit may select (R71). -/
inductive Mode where
  | positional
  | immediate
  | relative
  deriving DecidableEq, Repr

/-- Mode digit values (R71): 0, 1 and 2; the digits 3 to 9 select nothing. -/
def modeOfDigit : Nat → Option Mode
  | 0 => some .positional
  | 1 => some .immediate
  | 2 => some .relative
  | _ => none

/-- The digit of a mode (R71), for the encoder. -/
def Mode.digit : Mode → Nat
  | .positional => 0
  | .immediate => 1
  | .relative => 2

/-- `DecodeOperand(m, w)` (R74): it reads no memory and computes no address. -/
def decodeOperand (m : Mode) (w : Word) : Operand :=
  match m with
  | .positional => .positional w
  | .immediate => .immediate w
  | .relative => .relative w

/-- The mode an operand was decoded with. -/
def Operand.mode : Operand → Mode
  | .immediate _ => .immediate
  | .positional _ => .positional
  | .relative _ => .relative

/-- The instructions of format `1-param` (R94). -/
inductive Op1 where
  | inp
  | out
  | adjustRelativeBase
  deriving DecidableEq, Repr

/-- The instructions of format `2-param` (R94). -/
inductive Op2 where
  | jumpIfTrue
  | jumpIfFalse
  deriving DecidableEq, Repr

/-- The instructions of format `3-param` (R94). -/
inductive Op3 where
  | add
  | mul
  | lessThan
  | equal
  deriving DecidableEq, Repr

/-- A base opcode, sorted by its number of parameters (R69). -/
inductive Op where
  | p0
  | p1 (op : Op1)
  | p2 (op : Op2)
  | p3 (op : Op3)
  deriving DecidableEq, Repr

/-- Opcode values (R69). The numbers 3 to 9 are PRESUMED (D3; unsafe, assumption 4).
Every other value of `w mod 100` is an unknown opcode (R70). -/
def opOf : Nat → Option Op
  | 1 => some (.p3 .add)
  | 2 => some (.p3 .mul)
  | 3 => some (.p1 .inp)
  | 4 => some (.p1 .out)
  | 5 => some (.p2 .jumpIfTrue)
  | 6 => some (.p2 .jumpIfFalse)
  | 7 => some (.p3 .lessThan)
  | 8 => some (.p3 .equal)
  | 9 => some (.p1 .adjustRelativeBase)
  | 99 => some .p0
  | _ => none

/-- What an instruction word alone determines: the opcode and one mode per parameter it has (R66, R79). -/
inductive Head where
  | p0
  | p1 (op : Op1) (a : Mode)
  | p2 (op : Op2) (a b : Mode)
  | p3 (op : Op3) (a b c : Mode)
  deriving DecidableEq, Repr

/-- Why a Word is no instruction word: the two decode causes of 60_exceptions.md R151, each with the
offending instruction word. -/
inductive HeadError where
  /-- The instruction word is negative, too large, or has an unknown base opcode (R67, R68, R70). -/
  | badOpcode (w : Word)
  /-- A mode digit is malformed, or set for a parameter the instruction lacks (R71, R72). -/
  | badMode (w : Word)
  deriving DecidableEq, Repr

/-- Why a list of Words does not begin with an instruction. -/
inductive DecodeError where
  /-- Its first Word is no instruction word. -/
  | head (e : HeadError)
  /-- The list ends before the instruction does. A machine never meets this one: it reads a parameter
  Word from memory or faults on its address. -/
  | truncated
  deriving DecidableEq, Repr

/-- The mode digits of `n` against the number of parameters of the opcode: a digit of a parameter the
instruction has must be 0, 1 or 2 (R71), every other digit must be 0 (R72; D6, assumption 5). -/
def headModes (op : Op) (n : Nat) : Option Head :=
  match op with
  | .p0 => if digit 2 n = 0 ∧ digit 3 n = 0 ∧ digit 4 n = 0 then some .p0 else none
  | .p1 o =>
    match modeOfDigit (digit 2 n) with
    | some a => if digit 3 n = 0 ∧ digit 4 n = 0 then some (.p1 o a) else none
    | none => none
  | .p2 o =>
    match modeOfDigit (digit 2 n), modeOfDigit (digit 3 n) with
    | some a, some b => if digit 4 n = 0 then some (.p2 o a b) else none
    | _, _ => none
  | .p3 o =>
    match modeOfDigit (digit 2 n), modeOfDigit (digit 3 n), modeOfDigit (digit 4 n) with
    | some a, some b, some c => some (.p3 o a b c)
    | _, _, _ => none

/-- The checks on the instruction word in the order of R84 and R85: its range (R67, R68; D4, D5), the
base opcode (R70), the mode digits (R71, R72). -/
def decodeHead (w : Int) : Except HeadError Head :=
  if w < 0 ∨ 100000 ≤ w then .error (.badOpcode w)
  else
    match opOf (w.toNat % 100) with
    | none => .error (.badOpcode w)
    | some op =>
      match headModes op w.toNat with
      | none => .error (.badMode w)
      | some h => .ok h

/-- The constructor of a one-parameter opcode applied to its operand (R80). -/
def Op1.build (op : Op1) (a : Operand) : Instr :=
  match op with
  | .inp => .inp a
  | .out => .out a
  | .adjustRelativeBase => .adjustRelativeBase a

/-- The constructor of a two-parameter opcode applied to its operands (R80). -/
def Op2.build (op : Op2) (a b : Operand) : Instr :=
  match op with
  | .jumpIfTrue => .jumpIfTrue a b
  | .jumpIfFalse => .jumpIfFalse a b

/-- The constructor of a three-parameter opcode applied to its operands (R80). -/
def Op3.build (op : Op3) (a b c : Operand) : Instr :=
  match op with
  | .add => .add a b c
  | .mul => .mul a b c
  | .lessThan => .lessThan a b c
  | .equal => .equal a b c

/-- Decode the instruction at the front of a list of Words, and give the Words after it (R65, R84). -/
def decode : List Word → Except DecodeError (Instr × List Word)
  | [] => .error .truncated
  | w :: ws =>
    match decodeHead w with
    | .error e => .error (.head e)
    | .ok h =>
      match h, ws with
      | .p0, rest => .ok (.halt, rest)
      | .p1 op a, r1 :: rest => .ok (op.build (decodeOperand a r1), rest)
      | .p2 op a b, r1 :: r2 :: rest => .ok (op.build (decodeOperand a r1) (decodeOperand b r2), rest)
      | .p3 op a b c, r1 :: r2 :: r3 :: rest =>
        .ok (op.build (decodeOperand a r1) (decodeOperand b r2) (decodeOperand c r3), rest)
      | _, _ => .error .truncated

/-- The base opcode of an instruction (R69). -/
def Instr.opcode : Instr → Nat
  | .add _ _ _ => 1
  | .mul _ _ _ => 2
  | .inp _ => 3
  | .out _ => 4
  | .jumpIfTrue _ _ => 5
  | .jumpIfFalse _ _ => 6
  | .lessThan _ _ _ => 7
  | .equal _ _ _ => 8
  | .adjustRelativeBase _ => 9
  | .halt => 99

/-- `100*A + 1000*B + 10000*C` of R92, absent parameters contributing 0 (R72): the mode digits of a list of
operands, the first at weight `k`. -/
def modeDigits (k : Nat) : List Operand → Nat
  | [] => 0
  | o :: os => k * o.mode.digit + modeDigits (10 * k) os

/-- The Words of an instruction (R92): `OP + 100*A + 1000*B + 10000*C`, then the raw Words in order. -/
def encode (i : Instr) : List Word :=
  ((i.opcode + modeDigits 100 i.operands : Nat) : Int) :: i.operands.map Operand.raw

/-- The two's-complement reading of `n` modulo `2^W` as a Word of width `w`: how a pattern of bits that the
host lays out in Words stands for Words (PRESUMED with the Word range, R7; assumption 21). -/
def wordOfBits (w : Width) (n : Nat) : Word :=
  ((n : Int) + w.half) % (2 * w.half) - w.half

/-- The first `k` Words of width `w` of a bit pattern, bit 0 of it being the least significant bit of the
first Word (R53: an instruction's Words stand in ascending order). -/
def wordsOfBits (w : Width) : Nat → Nat → List Word
  | 0, _ => []
  | k + 1, n => wordOfBits w n :: wordsOfBits w k (n / 2 ^ w.bits)

/-- The four Words (the longest instruction, R78) that `nbits` bits of `n` stand for, all bits above zero. -/
def tableWords (w : Width) (nbits n : Nat) : List Word := wordsOfBits w 4 (n % 2 ^ nbits)

/-- The instruction the decoder reads from the bits `w` of a row of spec/opcode_table.json, laid out in
Words of the width `State.reset` has (assumption 21). -/
def decodeTableWord (nbits w : Nat) : Option Instr :=
  match decode (tableWords Config.standard.width nbits w) with
  | .ok (i, _) => some i
  | .error _ => none

end Sys2Proof
end

