-- ==== Sys2Proof/Machine/Flags.lean ====
section
/-! DEFINITION. The three interrupt flags (10_state.md R24): what decode sets and what a tick tests. There are no
condition codes (R31). -/

namespace Sys2Proof.Machine

/-- `DecodeFlags(I)` (30_encoding.md R88). -/
def decodeFlags (i : Instr) (s : State) : State :=
  match i with
  | .inp _ => s.setAwaitIn true
  | .out _ => s.setHasOut true
  | .halt => s.setHalted true
  | .add _ _ _ => s
  | .mul _ _ _ => s
  | .jumpIfTrue _ _ => s
  | .jumpIfFalse _ _ => s
  | .lessThan _ _ _ => s
  | .equal _ _ _ => s
  | .adjustRelativeBase _ => s

/-- `fAwaitIn or fHasOut or fHalted`, the test of a tick (60_exceptions.md R160). -/
def State.pending (s : State) : Bool := s.fAwaitIn || s.fHasOut || s.fHalted

end Sys2Proof.Machine
end

