-- ==== Sys2Proof/Machine/Fetch.lean ====
section
/-! DEFINITION. The decode step of the machine (30_encoding.md R84, R85): Words are read at `pc`, which each read advances
by one. -/

namespace Sys2Proof.Machine

/-- One Word of `Decode()` (R84): `MemRead(pc); pc <- pc + 1`, with the fetch-address check. -/
def fetchWord (s : State) : Res Word :=
  (memRead s.pc s).bind fun w t => .ok w (t.setPc (t.pc + 1))

/-- A rejected instruction word as a trap (R151, R152). -/
def trapOfHead : HeadError → Trap
  | .badOpcode w => { cause := .badOpcode, info := w }
  | .badMode w => { cause := .badMode, info := w }

/-- The parameter Words of an instruction, in order, and the instruction (R84, R86). -/
def fetchParams (h : Head) (s : State) : Res Instr :=
  match h with
  | .p0 => .ok .halt s
  | .p1 op a =>
    (fetchWord s).bind fun r1 s1 => .ok (op.build (decodeOperand a r1)) s1
  | .p2 op a b =>
    (fetchWord s).bind fun r1 s1 =>
    (fetchWord s1).bind fun r2 s2 => .ok (op.build (decodeOperand a r1) (decodeOperand b r2)) s2
  | .p3 op a b c =>
    (fetchWord s).bind fun r1 s1 =>
    (fetchWord s1).bind fun r2 s2 =>
    (fetchWord s2).bind fun r3 s3 =>
    .ok (op.build (decodeOperand a r1) (decodeOperand b r2) (decodeOperand c r3)) s3

/-- `Decode()` (R84): the checks on the instruction word come before any parameter is fetched (R85, D31), the
decode-time flag after all of them (R88). -/
def decodeStep (s : State) : Res Instr :=
  (fetchWord s).bind fun w s1 =>
  (liftTrap ((decodeHead w).mapError trapOfHead) s1).bind fun h s2 =>
  (fetchParams h s2).bind fun i s3 => .ok i (decodeFlags i s3)

/-- `Words` written at consecutive addresses from `a` on, as a host that pokes them would (R168). -/
def storeWords : List Word → Nat → State → State
  | [], _, s => s
  | w :: ws, a, s =>
    storeWords ws (a + 1) (s.setOverlay (backendWrite s.cfg.backend s.overlay a w))

/-- No fault, no flag pending, nothing returned: what a machine needs so that its next step fetches. -/
def readyToFetch (s : State) : State :=
  ((((s.setFault none).setRet none).setAwaitIn false).setHasOut false).setHalted false

/-- The state `s` with the instruction that `nbits` bits of `w` stand for written at `pc`, ready to fetch it
(assumptions 12 and 21). -/
def placeAtPc (s : State) (nbits w : Nat) : State :=
  storeWords (tableWords s.cfg.width nbits w) s.pc (readyToFetch s)

end Sys2Proof.Machine
end

