-- ==== Sys2Proof/Machine/Tick.lean ====
section
/-! DEFINITION. The tick (60_exceptions.md R160) and one pass of the loop of `run()` (R163). -/

namespace Sys2Proof.Machine

/-- `Tick()` (R160): with no flag set, decode, record the instruction in `cur` and execute it; with one set,
execute the instruction in `cur` again. A fault in the decode names the address `p0 = pc` (R152). -/
def tick (s : State) : Answer :=
  if s.pending then
    match s.cur with
    | some i => exec i s
    | none => .fault .noPendingInstruction
  else
    match decodeStep s with
    | .ok i t => exec i (t.setCur (some i))
    | .raise trap t => .next (takeFault (some s.pc) trap t)

/-- A tick and then the tests of `run()` (R163). -/
def runPass (s : State) : Answer :=
  match tick s with
  | .next t => endPass t
  | .fault f => .fault f
  | .refused r => .refused r

/-- A machine in the fault state has no further step (R150); any other one makes one pass of `run()`. -/
def stepHealthy (s : State) : Answer :=
  match s.fault with
  | some r => .fault (.aborted r)
  | none => runPass s

end Sys2Proof.Machine
end

