-- ==== Sys2Proof/Machine/Step.lean ====
section
/-! DEFINITION. One step of the machine, and the instruction placed where a step fetches. -/

namespace Sys2Proof.Machine

/-- One step: one pass of the loop of `run()` (R163), the host calling `run()` again at once after a
suspension (R174; assumption 10). -/
def step (s : State) : Host.Outcome State Fault Refusal := stepHealthy s

/-- `s` with the instruction that the bits `w` stand for at `pc`, so that the next step fetches and runs it
(assumptions 12 and 21). -/
def State.withFetchWord (s : State) (nbits w : Nat) : State := placeAtPc s nbits w

end Sys2Proof.Machine
end

