-- ==== Sys2Proof/Machine/Load.lean ====
section
/-! DEFINITION. Construction from program text (30_encoding.md R91, 70_reset_and_hazards.md R190). -/

namespace Sys2Proof.Machine

/-- The trimmed characters: 0x09 to 0x0D and 0x20 (R91; D21, PRESUMED, assumption 15). -/
def isBlank (c : Char) : Bool := (decide (9 ≤ c.toNat) && decide (c.toNat ≤ 13)) || c.toNat == 32

/-- A text without its leading and trailing blanks (R91). -/
def trimBlanks (t : List Char) : List Char :=
  ((t.dropWhile isBlank).reverse.dropWhile isBlank).reverse

/-- The tokens of a text: split at every comma (R91). -/
def splitCommas : List Char → List (List Char)
  | [] => [[]]
  | c :: r =>
    if c = ',' then [] :: splitCommas r
    else
      match splitCommas r with
      | [] => [[c]]
      | t :: ts => (c :: t) :: ts

/-- The value of a decimal digit (R91). -/
def digitValue (c : Char) : Option Nat :=
  if 48 ≤ c.toNat ∧ c.toNat ≤ 57 then some (c.toNat - 48) else none

/-- Decimal digits read on from the value `acc`; anything else makes the token unparseable (R91). -/
def digitsFrom : Nat → List Char → Option Nat
  | acc, [] => some acc
  | acc, c :: r =>
    match digitValue c with
    | some d => digitsFrom (acc * 10 + d) r
    | none => none

/-- One or more decimal digits (R91). -/
def digitsValue : List Char → Option Nat
  | [] => none
  | c :: r => digitsFrom 0 (c :: r)

/-- An optional sign and one or more decimal digits (R91; the `+` is D21, PRESUMED, assumption 15). -/
def tokenValue : List Char → Option Int
  | [] => none
  | c :: r =>
    if c = '-' then (digitsValue r).map fun n : Nat => -(n : Int)
    else if c = '+' then (digitsValue r).map fun n : Nat => (n : Int)
    else (digitsValue (c :: r)).map fun n : Nat => (n : Int)

/-- A token's Word, `none` for a token that load drops: unparseable, or out of the Word range (R91). -/
def tokenWord (w : Width) (t : List Char) : Option Word :=
  match tokenValue (trimBlanks t) with
  | some v => if w.fits v then some v else none
  | none => none

/-- `Parse(text)` (R91): the kept tokens in text order; a dropped token takes no address. -/
def parse (w : Width) (text : List Char) : List Word := (splitCommas text).filterMap (tokenWord w)

/-- `new(text)` with the parameters `cfg` (R190): never a fault. -/
def newMachine (cfg : Config) (text : List Char) : State :=
  State.initial { cfg with trace := false } (parse cfg.width text)

/-- `debug(text)` (R190): the same machine with `TRACE`. -/
def debugMachine (cfg : Config) (text : List Char) : State :=
  State.initial { cfg with trace := true } (parse cfg.width text)

end Sys2Proof.Machine
end

