-- ==== Sys2Proof/Machine/HostOps.lean ====
section
/-! DEFINITION. The host operations on a machine (60_exceptions.md R163 to R169, R181; 70_reset_and_hazards.md R192).
Construction is in Machine/Load.lean. -/

namespace Sys2Proof.Machine

/-- What the host may ask of a machine (R181; `setInput` replaces a Word, D17, assumption 16). There is no
operation for a single tick (R179). -/
inductive HostOp where
  | reset
  | run
  | setInput (v : Word)
  | peek (a : Nat)
  | poke (a : Nat) (v : Word)
  deriving DecidableEq, Repr

/-- What the host gets back (R181). -/
inductive HostReply where
  /-- The operation completed and returns nothing. -/
  | done
  /-- The Word `peek` returns. -/
  | word (v : Word)
  /-- The interrupt `run()` returns. -/
  | interrupt (i : Interrupt)
  /-- The operation ended without a result, or had no effect: the machine is in the fault state (R150). -/
  | noResult
  /-- `run()` is executing: it has not returned within the ticks it was followed for, or an operation that the
  host cannot begin before it returns (R169) has not begun. -/
  | running
  deriving DecidableEq, Repr

/-- The state `reset()` restores (R192): everything but the image and the configuration. -/
def resetState (s : State) : State :=
  { s with
    overlay := backendReset s.cfg.backend s.image.length s.overlay
    pc := 0
    rb := zero
    fAwaitIn := false
    fHasOut := false
    fHalted := false
    inReg := none
    outReg := none
    cur := none
    ret := none }

/-- `run()` (R163) followed for at most `n` ticks. -/
def runFor : Nat → State → HostReply × State
  | 0, s => (.running, s)
  | n + 1, s =>
    match step s with
    | .next t =>
      match t.fault, t.ret with
      | some _, _ => (.noResult, t)
      | none, some i => (.interrupt i, t)
      | none, none => runFor n t
    | .fault _ => (.noResult, s)
    | .refused _ => (.noResult, s)

/-- Is a `run()` of the machine executing (R169)? After a tick that neither faulted nor raised a flag an
instruction has been decoded and nothing returned; before the first `run()` and after `reset()` none has been
decoded, and after a suspension `ret` holds what was returned (assumption 19). -/
def State.inRun (s : State) : Bool := s.cur.isSome && s.ret.isNone && s.fault.isNone

/-- The host acts only while `run()` is not executing (R169): until it returns, no other operation begins. -/
def betweenRuns (s : State) (r : HostReply × State) : HostReply × State :=
  if s.inRun then (.running, s) else r

/-- `peek(a)` (R167): a Word, or `Fault(BadAddress, none, a)`. -/
def peekState (a : Nat) (s : State) : HostReply × State :=
  match memRead a s with
  | .ok v t => (.word v, t)
  | .raise trap t => (.noResult, takeFault none trap t)

/-- `poke(a, v)` (R168). -/
def pokeState (a : Nat) (v : Word) (s : State) : HostReply × State :=
  match memWrite a v s with
  | .ok _ t => (.done, t)
  | .raise trap t => (.noResult, takeFault none trap t)

/-- A host operation on a machine that is not in the fault state. A `run()` ticks at least once (R163) and is
followed for `n` ticks after that; while one is executing, `.run` is that same `run()`, followed on. -/
def hostOpHealthy (n : Nat) (op : HostOp) (s : State) : HostReply × State :=
  match op with
  | .reset => betweenRuns s (.done, resetState s)
  | .run => runFor (n + 1) s
  | .setInput v => betweenRuns s (.done, s.setInReg (some v))
  | .peek a => betweenRuns s (peekState a s)
  | .poke a v => betweenRuns s (pokeState a v s)

/-- A host operation (R181): none has an effect or a result on a machine in the fault state (R150), and none
begins before the one before it completed (R169). `n` is no part of the operation: it is how long the model
follows a `run()`, which has no such bound itself (R171; assumption 19). -/
def hostOp (n : Nat) (op : HostOp) (s : State) : HostReply × State :=
  match s.fault with
  | some _ => (.noResult, s)
  | none => hostOpHealthy n op s

end Sys2Proof.Machine
end

