-- ==== Sys2Proof/Machine/Multi.lean ====
section
/-! DEFINITION. Several machines of one host process (10_state.md R36, 20_memory.md R62, 60_exceptions.md R154, R178). -/

namespace Sys2Proof.Machine

/-- Some machine of the process is in the fault state. -/
def anyFaulted (ms : List State) : Bool := ms.any fun m => m.fault.isSome

/-- A host operation on the `k`-th machine of a process (R178): it reaches that machine alone (R36, R62), and a
fault in any machine has ended the process (R154). Which machine the host turns to next is the host's
program, not the machines' (D29; assumption 20); `n` is as in `hostOp`. -/
def processOp (k n : Nat) (op : HostOp) (ms : List State) : HostReply × List State :=
  if anyFaulted ms then (.noResult, ms)
  else
    match ms[k]? with
    | some m => ((hostOp n op m).1, ms.set k (hostOp n op m).2)
    | none => (.noResult, ms)

end Sys2Proof.Machine
end

