-- ==== Sys2Proof/WellFormed.lean ====
section
/-! DEFINITION. Well-formed instructions: every raw parameter Word is a Word of the machine's width
(00_scope.md R7, 30_encoding.md R77). The type `Instr` already shuts out everything else: a destination may be
`Immediate` (R76), and a mode or an opcode outside R69 and R71 has no constructor. -/

namespace Sys2Proof

/-- The raw Word of the operand is in `[WMIN, WMAX]` (R77). -/
def Operand.wf (w : Width) (o : Operand) : Bool := w.fits o.raw

/-- Every operand of the instruction is well formed at width `w`. -/
def Instr.wf (w : Width) : Instr → Bool
  | .add a b c => a.wf w && b.wf w && c.wf w
  | .mul a b c => a.wf w && b.wf w && c.wf w
  | .inp a => a.wf w
  | .out a => a.wf w
  | .jumpIfTrue a b => a.wf w && b.wf w
  | .jumpIfFalse a b => a.wf w && b.wf w
  | .lessThan a b c => a.wf w && b.wf w && c.wf w
  | .equal a b c => a.wf w && b.wf w && c.wf w
  | .adjustRelativeBase a => a.wf w
  | .halt => true

end Sys2Proof
end

