-- ==== Sys2Proof/Safety.lean ====
section
/-! DEFINITION. The terms the statements are written in: the value of an operand, the invariant of a machine, how a run
ends, and the views under which two machines are the same. -/

namespace Sys2Proof.Machine

/-- The value `ReadOp` gives for an operand (R46), or the trap it raises, without the backend's own
bookkeeping. -/
def operandVal (s : State) : Operand → Except Trap Word
  | .immediate w => .ok w
  | .positional w => (eaPositional s w).map s.wordAt
  | .relative w => (eaRelative s w).map s.wordAt

/-- The four Words at `a` and after it: enough for every instruction (R78). -/
def State.wordsAt (s : State) (a : Nat) : List Word :=
  [s.wordAt a, s.wordAt (a + 1), s.wordAt (a + 2), s.wordAt (a + 3)]

/-- The dense length after the `k` addresses from `a` on (at least one) were read (R41); the sparse backend
has none. -/
def State.lenAfterReads (s : State) (a k : Nat) : Nat :=
  match s.cfg.backend with
  | .dense => max s.overlay.len (a + k)
  | .sparse => s.overlay.len

/-- The state in which an instruction decoded at `s.pc` executes (R84, R88, R160): its Words are read, `pc`
stands behind it, its decode-time flag is set, and `cur` holds it. -/
def State.afterDecode (s : State) (i : Instr) : State :=
  (decodeFlags i
    ((s.setOverlay { s.overlay with len := s.lenAfterReads s.pc i.length }).setPc
      (s.pc + i.length))).setCur (some i)

/-- Every integer an optional register holds is a Word (R25, R26). -/
def regFits (w : Width) (r : Option Word) : Bool := r.all w.fits

/-- Every Word of the overlay is a Word of width `w` at a legal address (R9, R21). -/
def Memory.fits (m : Memory) (w : Width) (limit : Nat) : Bool :=
  m.cells.all fun c => w.fits c.2 && decide (c.1 < limit)

/-- The dense backend's length covers the image and every set slot (R41, R43). -/
def Memory.covers (m : Memory) (cap : Nat) : Bool :=
  decide (cap ≤ m.len) && m.cells.all fun c => decide (c.1 < m.len)

/-- The data clauses of the invariant: they hold in the fault state too. -/
def State.dataOk (s : State) : Bool :=
  s.cfg.wf
  && s.image.all s.cfg.width.fits
  && s.overlay.wf
  && s.overlay.fits s.cfg.width s.cfg.memLimit
  && (match s.cfg.backend with
      | .dense => s.overlay.covers s.image.length
      | .sparse => s.overlay.len == s.image.length)
  && s.cfg.width.fits s.rb
  && regFits s.cfg.width s.inReg
  && regFits s.cfg.width s.outReg
  && s.cur.all (Instr.wf s.cfg.width)

/-- Between two steps of a machine that has not faulted (R33, R158): no output is pending; a pending input or
halt is the instruction in `cur`, with `pc` behind it; and the flags are what `run()` returned. -/
def State.flagsOk (s : State) : Bool :=
  !s.fHasOut
  && s.outReg == none
  && (s.fAwaitIn == (s.ret == some .input))
  && (s.fHalted == (s.ret == some .halt))
  && (!s.fAwaitIn || (match s.cur with
      | some (.inp _) => decide (2 ≤ s.pc)
      | _ => false))
  && (!s.fHalted || s.cur == some .halt)

/-- The invariant of a machine between two steps. -/
abbrev State.Inv (s : State) : Prop :=
  s.dataOk = true ∧ (s.fault = none → s.flagsOk = true)

/-- A host supplies Words of the machine's width (D26). -/
def HostOp.wf (w : Width) : HostOp → Bool
  | .reset => true
  | .run => true
  | .setInput v => w.fits v
  | .peek _ => true
  | .poke _ v => w.fits v

/-- The states a host can bring the machine `m` to (R181): steps of `run()`, the first of them its call, and host
operations, which have no effect before `run()` has returned (R169). -/
inductive Reach (m : State) : State → Prop where
  | start : Reach m m
  | step {s t : State} (hs : Reach m s) (h : step s = .next t) : Reach m t
  | op {s : State} (hs : Reach m s) (n : Nat) (o : HostOp) (h : o.wf s.cfg.width = true) :
      Reach m (hostOp n o s).2

/-- The host makes the calls `ops` on `s` one after another, each completing before the next begins (R169), gets
the replies `rs` and leaves the machine in `t`. -/
inductive Session : State → List HostOp → List HostReply → State → Prop where
  | nil (s : State) : Session s [] [] s
  | cons {s u t : State} {op : HostOp} {r : HostReply} {ops : List HostOp} {rs : List HostReply} (n : Nat)
      (h : hostOp n op s = (r, u)) (hr : r ≠ .running) (hs : Session u ops rs t) :
      Session s (op :: ops) (r :: rs) t

/-- `run()` returns `i` and leaves the machine in `t` (R163, R170). -/
def RunReturns (s : State) (i : Interrupt) (t : State) : Prop := ∃ n, runFor n s = (.interrupt i, t)

/-- `run()` never returns (R171): after any number of ticks it is still running. -/
def RunHangs (s : State) : Prop := ∀ n, (runFor n s).1 = .running

/-- `t` is reached from `s` by one or more steps, with no host operation between them. -/
inductive Steps (s : State) : State → Prop where
  | one {t : State} (h : step s = .next t) : Steps s t
  | more {t u : State} (hs : Steps s t) (h : step t = .next u) : Steps s u

/-- *Halted* is terminal (R24, R164): no host operation but `reset()` clears `fHalted`, any number of ticks of
`run()` among them. -/
def HaltIsTerminal : Prop :=
  ∀ (s : State) (n : Nat) (op : HostOp), s.fHalted = true → op ≠ .reset → (hostOp n op s).2.fHalted = true

/-- A run of the machine ends successfully when `run()` returns `Halt` (D23). -/
def RunHalts (s : State) : Prop := ∃ t, RunReturns s .halt t

/-- What `run()` makes of the answer of a tick (R163). -/
def afterTick : Answer → Answer
  | .next t => endPass t
  | .fault f => .fault f
  | .refused r => .refused r

/-- `r` is what `OVERFLOW` makes of the exact result (R14): itself when it is a Word, and under `Wrap` the Word
congruent to it modulo `2^W`. -/
def NarrowsTo (cfg : Config) (exact r : Int) : Prop :=
  (cfg.width.fits exact = true ∧ r = exact) ∨
  (cfg.width.fits exact = false ∧ cfg.overflow = .wrap ∧ cfg.width.fits r = true ∧
    (2 : Int) ^ cfg.width.bits ∣ exact - r)

/-- `t` is `s` with the Word `r` at the address `d` (none: nowhere): every register as before, and every other
address reads as before. -/
def StoresOnly (s t : State) (d : Option Nat) (r : Word) : Prop :=
  t = s.setOverlay t.overlay ∧ ∀ a, t.wordAt a = if d = some a then r else s.wordAt a

/-- `t` is `s`, every address reading as before: only the dense length may differ. -/
def SameButReads (s t : State) : Prop :=
  t = s.setOverlay t.overlay ∧ ∀ a, t.wordAt a = s.wordAt a

/-- `t` is `s` in the fault state of the trap `tr` raised at `loc`, every address reading as before. -/
def FaultsOnly (s t : State) (loc : Nat) (tr : Trap) : Prop :=
  SameButReads (s.setFault (some { cause := tr.cause, loc := some loc, info := tr.info })) t

/-- The step rejects the Word at `pc` as an instruction word with the cause `c` (R16, R151, R152): the fault
record names the address of that Word and the Word, `pc` has advanced by the one Word read, and nothing else
has changed. -/
def RejectsWord (s : State) (c : Cause) : Prop :=
  ∃ t, step s = .next t ∧
    SameButReads (((s.setPc (s.pc + 1)).setFault
      (some { cause := c, loc := some s.pc, info := s.wordAt s.pc })).setRet none) t

/-- The behaviour of an instruction of two sources and a destination, on every path where the result is a Word:
`yields cfg x y r` says that the sources `x` and `y` give the Word `r` (R100, R101, R130, R131). -/
def TwoSourceRule (mk : Operand → Operand → Operand → Instr) (yields : Config → Int → Int → Word → Prop) : Prop :=
  ∀ (s : State) (a b c : Operand),
    decodeFlags (mk a b c) s = s ∧
    (∀ tr, operandVal s a = .error tr →
      ∃ t, exec (mk a b c) s = .next t ∧ FaultsOnly s t (s.pc - 4) tr) ∧
    (∀ x tr, operandVal s a = .ok x → operandVal s b = .error tr →
      ∃ t, exec (mk a b c) s = .next t ∧ FaultsOnly s t (s.pc - 4) tr) ∧
    (∀ x y r tr, operandVal s a = .ok x → operandVal s b = .ok y → yields s.cfg x y r →
      ea s c = .error tr → ∃ t, exec (mk a b c) s = .next t ∧ FaultsOnly s t (s.pc - 4) tr) ∧
    (∀ x y r d, operandVal s a = .ok x → operandVal s b = .ok y → yields s.cfg x y r →
      ea s c = .ok d → ∃ t, exec (mk a b c) s = .next t ∧ StoresOnly s t d r)

/-- Under `OVERFLOW = Fault` an exact result that is no Word faults with it, whatever the destination, and
nothing is written (R100, R101). -/
def OverflowRule (mk : Operand → Operand → Operand → Instr) (res : Int → Int → Int) : Prop :=
  ∀ (s : State) (a b c : Operand) (x y : Int),
    operandVal s a = .ok x → operandVal s b = .ok y →
    s.cfg.width.fits (res x y) = false → s.cfg.overflow = .fault →
    ∃ t, exec (mk a b c) s = .next t ∧
      FaultsOnly s t (s.pc - 4) { cause := .arithOverflow, info := res x y }

/-- The whole behaviour of a jump taken on the condition Words of `taken` (R120, R121). -/
def JumpRule (mk : Operand → Operand → Instr) (taken : Int → Prop) : Prop :=
  ∀ (s : State) (a b : Operand),
    decodeFlags (mk a b) s = s ∧
    (∀ tr, operandVal s a = .error tr →
      ∃ t, exec (mk a b) s = .next t ∧ FaultsOnly s t (s.pc - 3) tr) ∧
    (∀ x tr, operandVal s a = .ok x → operandVal s b = .error tr →
      ∃ t, exec (mk a b) s = .next t ∧ FaultsOnly s t (s.pc - 3) tr) ∧
    (∀ x y, operandVal s a = .ok x → operandVal s b = .ok y → ¬ taken x →
      ∃ t, exec (mk a b) s = .next t ∧ SameButReads s t) ∧
    (∀ (x : Word) (y : Int), operandVal s a = .ok x → operandVal s b = .ok y → taken x →
      (y < 0 ∨ (s.cfg.memLimit : Int) ≤ y) →
      ∃ t, exec (mk a b) s = .next t ∧
        FaultsOnly s t (s.pc - 3) { cause := .badAddress, info := y }) ∧
    (∀ (x : Word) (p : Nat), operandVal s a = .ok x → operandVal s b = .ok (p : Int) → taken x →
      p < s.cfg.memLimit →
      ∃ t, exec (mk a b) s = .next t ∧ SameButReads (s.setPc p) t)

/-- A taken jump to its own address makes `run()` hang (R120, R121, R171). -/
def SelfJumpHangs (mk : Operand → Operand → Instr) (taken : Int → Prop) : Prop :=
  ∀ (s : State) (a b : Operand) (rest : List Word) (x : Word),
    s.fault = none → s.pending = false → s.pc + 3 ≤ s.cfg.memLimit →
    decode (s.wordsAt s.pc) = .ok (mk a b, rest) →
    operandVal s a = .ok x → taken x → operandVal s b = .ok (s.pc : Int) → RunHangs s

/-- The destination of an instruction, `none` where it has none (the parameter roles of R75). -/
def destOf : Instr → Option Operand
  | .add _ _ c => some c
  | .mul _ _ c => some c
  | .inp a => some a
  | .out _ => none
  | .jumpIfTrue _ _ => none
  | .jumpIfFalse _ _ => none
  | .lessThan _ _ c => some c
  | .equal _ _ c => some c
  | .adjustRelativeBase _ => none
  | .halt => none

/-- At most one interrupt flag is set (R33). -/
def State.oneFlag (s : State) : Bool :=
  !(s.fAwaitIn && s.fHasOut) && !(s.fAwaitIn && s.fHalted) && !(s.fHasOut && s.fHalted)

/-- The flag of `s` that an interrupt reports (R156, R170), with the output register behind `Output(v)`. -/
def Interrupt.raisedIn (s : State) : Interrupt → Prop
  | .input => s.fAwaitIn = true
  | .output v => s.fHasOut = true ∧ s.outReg = some v
  | .halt => s.fHalted = true

/-- One access to the combined address space (R49). -/
inductive Access where
  | read (a : Nat)
  | write (a : Nat) (v : Word)
  deriving DecidableEq, Repr

/-- The address of an access. -/
def Access.addr : Access → Nat
  | .read a => a
  | .write a _ => a

/-- The state a result carries. -/
def Res.state {α : Type} : Res α → State
  | .ok _ s => s
  | .raise _ s => s

/-- The state after one access (`MemRead` or `MemWrite`). -/
def Access.run (s : State) : Access → State
  | .read a => (memRead a s).state
  | .write a v => (memWrite a v s).state

/-- The Word of the most recent write to `a` in a sequence of accesses, oldest first (R49). -/
def lastWrite (a : Nat) : List Access → Option Word
  | [] => none
  | .read _ :: r => lastWrite a r
  | .write b v :: r =>
    match lastWrite a r with
    | some w => some w
    | none => if b = a then some v else none

/-- The number of parameters of a base opcode, `none` for an unknown one (R69). -/
def paramCount : Nat → Option Nat
  | 1 => some 3
  | 2 => some 3
  | 3 => some 1
  | 4 => some 1
  | 5 => some 2
  | 6 => some 2
  | 7 => some 3
  | 8 => some 3
  | 9 => some 1
  | 99 => some 0
  | _ => none

/-- The mode digit of parameter `i` (1 to 3) of the instruction word `n` is malformed for an instruction of `k`
parameters (R71, R72). -/
def badModeDigit (k n i : Nat) : Prop :=
  (i ≤ k ∧ 2 < digit (i + 1) n) ∨ (k < i ∧ digit (i + 1) n ≠ 0)

/-- The value of a string of decimal digits (R91). -/
def numeral (ds : List Char) : Nat := ds.foldl (fun acc c => acc * 10 + (c.toNat - 48)) 0

/-- The character is one of the ten decimal digits (R91). -/
def isDigit (c : Char) : Bool := decide (48 ≤ c.toNat) && decide (c.toNat ≤ 57)

/-- The token `t` is a signed decimal number of value `v` with blanks around it (R91). -/
def ReadsAs (t : List Char) (v : Int) : Prop :=
  ∃ pre sgn ds post, t = pre ++ sgn ++ ds ++ post ∧ pre.all isBlank = true ∧ post.all isBlank = true ∧
    ds ≠ [] ∧ ds.all isDigit = true ∧
    ((sgn = [] ∧ v = numeral ds) ∨ (sgn = ['+'] ∧ v = numeral ds) ∨ (sgn = ['-'] ∧ v = -(numeral ds : Int)))

/-- The same answer with the next state seen through `f`. -/
def mapNext (f : State → State) : Answer → Answer
  | .next t => .next (f t)
  | .fault r => .fault r
  | .refused r => .refused r

/-- The machine without what no result depends on (R34, R49): which backend it uses, and the dense length. -/
def State.forgetBackend (s : State) : State :=
  { s with cfg := { s.cfg with backend := .sparse }, overlay := { s.overlay with len := 0 } }

/-- The same machine with tracing on or off (R162). -/
def State.withTrace (s : State) (b : Bool) : State := { s with cfg := { s.cfg with trace := b } }

/-- The same machine over Words of another width (R8). -/
def State.withWidth (s : State) (w : Width) : State := { s with cfg := { s.cfg with width := w } }

end Sys2Proof.Machine
end

