-- ==== Sys2Proof/Certificates/Slice0/Obligations.lean ====
section
/-! DEFINITION. The statements for the provers. The terms they use (`StoresOnly`, `FaultsOnly`, `TwoSourceRule`,
`State.Inv`, …) are defined in Sys2Proof/Safety.lean. Where a statement names the field `ret`, it says what `run()`
returned to the host at the end of a step: the field is the model's own (assumption 10), the value is the spec's. -/

open Sys2Proof Sys2Proof.Machine

/-! ## Encoding (30_encoding.md) -/

/-- Decoding an encoded instruction gives it back, whatever Words follow: no digit and no operand Word is
dropped (R66, R92). -/
def Obligations.DecodeOfEncodeIsInstr : Prop :=
  ∀ (i : Instr) (rest : List Word), decode (encode i ++ rest) = .ok (i, rest)

/-- Words that decode are the encoding of what they decode to: every instruction has exactly one spelling
(R66, R72, R89). -/
def Obligations.EncodeOfDecodeIsWords : Prop :=
  ∀ (ws : List Word) (i : Instr) (rest : List Word), decode ws = .ok (i, rest) → ws = encode i ++ rest

/-- A well-formed instruction is made of Words of the machine's width, at each of the four widths (R6, R77). -/
def Obligations.EncodedWordsFitWidth : Prop :=
  ∀ (w : Width) (i : Instr), i.wf w = true → ∀ x ∈ encode i, w.fits x = true

/-- Which instruction words are rejected and how: a negative or oversized Word (R67, R68) and an unknown base
opcode (R70) as `BadOpcode`; then a malformed mode digit of a parameter the instruction has (R71) or a set
one of a parameter it lacks (R72) as `BadMode`; every other Word is accepted. -/
def Obligations.HeadRejectsExactlyIllFormed : Prop :=
  (∀ w : Int, w < 0 ∨ 100000 ≤ w → decodeHead w = .error (.badOpcode w)) ∧
  (∀ n : Nat, n < 100000 → paramCount (n % 100) = none → decodeHead (n : Int) = .error (.badOpcode (n : Int))) ∧
  (∀ n k : Nat, n < 100000 → paramCount (n % 100) = some k →
    (badModeDigit k n 1 ∨ badModeDigit k n 2 ∨ badModeDigit k n 3) →
    decodeHead (n : Int) = .error (.badMode (n : Int))) ∧
  (∀ n k : Nat, n < 100000 → paramCount (n % 100) = some k →
    ¬ (badModeDigit k n 1 ∨ badModeDigit k n 2 ∨ badModeDigit k n 3) →
    ∃ h, decodeHead (n : Int) = .ok h)

/-- Words written out from 95_test_vectors.md, and from the worked examples of R121 (42_jumps.md: 1106, -3, 9) and
R140 (44_system.md: 109, -7), decode to the instructions named beside them there. -/
def Obligations.WrittenWordsDecode : Prop :=
  decode [1, 9, 10, 3] = .ok (.add (.positional 9) (.positional 10) (.positional 3), []) ∧
  decode [21202, 0, 3, 1] = .ok (.mul (.relative 0) (.immediate 3) (.relative 1), []) ∧
  decode [203, 0] = .ok (.inp (.relative 0), []) ∧
  decode [104, 42] = .ok (.out (.immediate 42), []) ∧
  decode [1005, 10, 0] = .ok (.jumpIfTrue (.positional 10) (.immediate 0), []) ∧
  decode [1106, -3, 9] = .ok (.jumpIfFalse (.immediate (-3)) (.immediate 9), []) ∧
  decode [21207, 1, 20, 2] = .ok (.lessThan (.relative 1) (.immediate 20) (.relative 2), []) ∧
  decode [8, 9, 10, 9] = .ok (.equal (.positional 9) (.positional 10) (.positional 9), []) ∧
  decode [109, -7] = .ok (.adjustRelativeBase (.immediate (-7)), []) ∧
  decode [99] = .ok (.halt, [])

/-- Instruction lengths in Words, of the encoding and of what a decode takes off `pc` (R78). -/
def Obligations.InstructionLengthsMatchTable : Prop :=
  ∀ a b c : Operand,
    (encode (.add a b c)).length = 4 ∧ (encode (.mul a b c)).length = 4 ∧
    (encode (.inp a)).length = 2 ∧ (encode (.out a)).length = 2 ∧
    (encode (.jumpIfTrue a b)).length = 3 ∧ (encode (.jumpIfFalse a b)).length = 3 ∧
    (encode (.lessThan a b c)).length = 4 ∧ (encode (.equal a b c)).length = 4 ∧
    (encode (.adjustRelativeBase a)).length = 2 ∧ (encode .halt).length = 1 ∧
    ∀ i : Instr, (encode i).length = i.length

/-! ## Word primitives and operands (00_scope.md, 20_memory.md) -/

/-- The address view: a negative Word and one at least `MEM_LIMIT` raise `BadAddress` with the Word, any other
is the natural number it is (R13). -/
def Obligations.AddressViewChecksRange : Prop :=
  ∀ (cfg : Config) (w : Int),
    ((w < 0 ∨ (cfg.memLimit : Int) ≤ w) →
      addrOf cfg w = .error { cause := .badAddress, info := w }) ∧
    (∀ n : Nat, w = n → n < cfg.memLimit → addrOf cfg w = .ok n)

/-- Sum and product: the exact result when it is a Word; else the trap with the exact result, or the one Word
congruent to it modulo `2^W`, as `OVERFLOW` says (R14). -/
def Obligations.SumAndProductNarrowExactResult : Prop :=
  ∀ (cfg : Config) (x y : Int),
    (∀ op exact, (op = wadd ∧ exact = x + y) ∨ (op = wmul ∧ exact = x * y) →
      (cfg.width.fits exact = true → op cfg x y = .ok exact) ∧
      (cfg.width.fits exact = false → cfg.overflow = .fault →
        op cfg x y = .error { cause := .arithOverflow, info := exact }) ∧
      (cfg.width.fits exact = false → cfg.overflow = .wrap →
        ∃ r, op cfg x y = .ok r ∧ cfg.width.fits r = true ∧ (2 : Int) ^ cfg.width.bits ∣ exact - r ∧
          ∀ r' : Int, cfg.width.fits r' = true → (2 : Int) ^ cfg.width.bits ∣ exact - r' → r' = r))

/-- The memory address translator for the three operand kinds (R45): the view of the Word, the view of the
Word sum `rb + w`, no address; a trap of the sum or of the view is the operand's. -/
def Obligations.EffectiveAddressTranslates : Prop :=
  ∀ (s : State) (w : Int),
    ea s (.immediate w) = .ok none ∧
    (∀ a : Nat, w = a → a < s.cfg.memLimit → ea s (.positional w) = .ok (some a)) ∧
    ((w < 0 ∨ (s.cfg.memLimit : Int) ≤ w) →
      ea s (.positional w) = .error { cause := .badAddress, info := w }) ∧
    (∀ a : Nat, NarrowsTo s.cfg (s.rb + w) a → a < s.cfg.memLimit → ea s (.relative w) = .ok (some a)) ∧
    (∀ r : Int, NarrowsTo s.cfg (s.rb + w) r → (r < 0 ∨ (s.cfg.memLimit : Int) ≤ r) →
      ea s (.relative w) = .error { cause := .badAddress, info := r }) ∧
    (s.cfg.width.fits (s.rb + w) = false → s.cfg.overflow = .fault →
      ea s (.relative w) = .error { cause := .arithOverflow, info := s.rb + w })

/-- `ReadOp` and `WriteOp` for the three operand kinds (R46): an `Immediate` operand is its Word and discards
a write; any other one reads and writes the cell at its effective address. -/
def Obligations.OperandsReadAndWriteTheirCell : Prop :=
  ∀ (s : State) (o : Operand) (v : Word),
    (∀ w, o = .immediate w → readOp o s = .ok w s ∧ writeOp o v s = .ok () s) ∧
    (∀ a, ea s o = .ok (some a) →
      (∃ t, readOp o s = .ok (s.wordAt a) t ∧ SameButReads s t) ∧
      (∃ t, writeOp o v s = .ok () t ∧ StoresOnly s t (some a) v)) ∧
    (∀ tr, ea s o = .error tr → readOp o s = .raise tr s ∧ writeOp o v s = .raise tr s)

/-! ## Memory (20_memory.md) -/

/-- The dense backend: it begins with the length of the image and every slot unset, a read or a write past the
length grows it to the address, a read gives the slot, a write sets it, `reset` restores the capacity and
unsets every slot (R41). -/
def Obligations.DenseBackendGrows : Prop :=
  (∀ (cfg : Config) (image : List Word), cfg.backend = .dense →
    (State.initial cfg image).overlay.len = image.length ∧
    ∀ b, cellsGet (State.initial cfg image).overlay.cells b = none) ∧
  ∀ (cap : Nat) (m : Memory) (a : Nat) (v : Word),
    (backendRead .dense cap m a).1 = cellsGet m.cells a ∧
    (backendRead .dense cap m a).2 = { m with len := max m.len (a + 1) } ∧
    (backendWrite .dense m a v).len = max m.len (a + 1) ∧
    cellsGet (backendWrite .dense m a v).cells a = some v ∧
    (∀ b, b ≠ a → cellsGet (backendWrite .dense m a v).cells b = cellsGet m.cells b) ∧
    (backendReset .dense cap m).len = cap ∧
    (∀ b, cellsGet (backendReset .dense cap m).cells b = none)

/-- The sparse backend: it begins with an empty map; a read gives the listed Word, else `ZERO` at or beyond the
capacity, else "unset"; a write lists the Word, `reset` empties the map (R42). -/
def Obligations.SparseBackendZeroFills : Prop :=
  (∀ (cfg : Config) (image : List Word), cfg.backend = .sparse →
    ∀ b, cellsGet (State.initial cfg image).overlay.cells b = none) ∧
  ∀ (cap : Nat) (m : Memory) (a : Nat) (v : Word),
    (∀ w, cellsGet m.cells a = some w → backendRead .sparse cap m a = (some w, m)) ∧
    (cellsGet m.cells a = none → cap ≤ a → backendRead .sparse cap m a = (some 0, m)) ∧
    (cellsGet m.cells a = none → a < cap → backendRead .sparse cap m a = (none, m)) ∧
    cellsGet (backendWrite .sparse m a v).cells a = some v ∧
    (∀ b, b ≠ a → cellsGet (backendWrite .sparse m a v).cells b = cellsGet m.cells b) ∧
    (∀ b, cellsGet (backendReset .sparse cap m).cells b = none)

/-- Under both backends, after construction or reset and any sequence of legal accesses, a read gives the most
recent write to the address, else the image's Word, else zero (R49). -/
def Obligations.ReadGivesLastWriteElseImageElseZero : Prop :=
  ∀ (s : State) (l : List Access) (a : Nat),
    (s = State.initial s.cfg s.image ∨ ∃ u, s = resetState u) →
    (∀ x ∈ l, x.addr < s.cfg.memLimit) → a < s.cfg.memLimit →
    ∃ t, memRead a (l.foldl Access.run s) = .ok ((lastWrite a l).getD (s.image.getD a 0)) t

/-- Every operation on the overlay keeps its canonical form, and distinct overlays of equal dense length in
that form differ in what some address reads as: equal overlays are equal data. The canonical form is the model's
choice (assumption 13). -/
def Obligations.OverlayCanonicalFormKept : Prop :=
  (∀ (b : Backend) (cap : Nat) (m : Memory) (a : Nat) (v : Word), m.wf = true →
    (backendRead b cap m a).2.wf = true ∧ (backendWrite b m a v).wf = true ∧
    (backendReset b cap m).wf = true) ∧
  (∀ m n : Memory, m.wf = true → n.wf = true → m.len = n.len →
    (∀ a, cellsGet m.cells a = cellsGet n.cells a) → m = n)

/-! ## The ten instructions (40_arithmetic.md to 44_system.md): what each does on every path -/

/-- `Add` (R100): encoding, every fault in order, the discarded and the landed write, and the frame. -/
def Obligations.AddFollowsItsRule : Prop :=
  TwoSourceRule .add (fun cfg x y r => NarrowsTo cfg (x + y) r) ∧ OverflowRule .add (fun x y => x + y) ∧
  ∀ a b c : Operand, encode (.add a b c) =
    [((1 + 100 * a.mode.digit + 1000 * b.mode.digit + 10000 * c.mode.digit : Nat) : Int), a.raw, b.raw, c.raw]

/-- `Mul` (R101). -/
def Obligations.MulFollowsItsRule : Prop :=
  TwoSourceRule .mul (fun cfg x y r => NarrowsTo cfg (x * y) r) ∧ OverflowRule .mul (fun x y => x * y) ∧
  ∀ a b c : Operand, encode (.mul a b c) =
    [((2 + 100 * a.mode.digit + 1000 * b.mode.digit + 10000 * c.mode.digit : Nat) : Int), a.raw, b.raw, c.raw]

/-- `LessThan` (R130): 1 when the signed first source is below the second, else 0. -/
def Obligations.LessThanFollowsItsRule : Prop :=
  TwoSourceRule .lessThan (fun _ x y r => r = if x < y then 1 else 0) ∧
  ∀ a b c : Operand, encode (.lessThan a b c) =
    [((7 + 100 * a.mode.digit + 1000 * b.mode.digit + 10000 * c.mode.digit : Nat) : Int), a.raw, b.raw, c.raw]

/-- `Equal` (R131): 1 when the sources are the same Word, else 0. -/
def Obligations.EqualFollowsItsRule : Prop :=
  TwoSourceRule .equal (fun _ x y r => r = if x = y then 1 else 0) ∧
  ∀ a b c : Operand, encode (.equal a b c) =
    [((8 + 100 * a.mode.digit + 1000 * b.mode.digit + 10000 * c.mode.digit : Nat) : Int), a.raw, b.raw, c.raw]

/-- `In` (R110): encoding and decode flag; the Word present is consumed and lands at the destination, or is
discarded by an `Immediate` one; an illegal destination faults with the Word consumed (R153); with no Word
there is no effect, whatever the destination, the pending instruction, which no `poke` changes, is
executed again by the next step, and `run()` returns `Input`. -/
def Obligations.InFollowsItsRule : Prop :=
  ∀ (s : State) (a : Operand),
    encode (.inp a) = [((3 + 100 * a.mode.digit : Nat) : Int), a.raw] ∧
    decodeFlags (.inp a) s = s.setAwaitIn true ∧
    (∀ v d, s.inReg = some v → ea s a = .ok d →
      ∃ t, exec (.inp a) s = .next t ∧ StoresOnly ((s.setInReg none).setAwaitIn false) t d v) ∧
    (∀ v tr, s.inReg = some v → ea s a = .error tr →
      exec (.inp a) s = .next (((s.setInReg none).setAwaitIn false).setFault
        (some { cause := tr.cause, loc := some (s.pc - 2), info := tr.info }))) ∧
    (s.inReg = none → exec (.inp a) s = .next s) ∧
    (∀ (n b : Nat) (v : Word), (hostOp n (.poke b v) s).2.cur = s.cur) ∧
    (s.fault = none → s.fAwaitIn = true → s.cur = some (.inp a) → step s = afterTick (exec (.inp a) s)) ∧
    (s.fault = none → s.fAwaitIn = true → s.fHalted = false → s.cur = some (.inp a) → s.inReg = none →
      step s = .next (s.setRet (some .input)))

/-- `Out` (R111): encoding and decode flag; the operand's Word goes to the output register, and the `run()` it
executes in returns it, the register drained and the flag cleared; an illegal source faults; in a machine the
register is empty whenever `Out` executes. -/
def Obligations.OutFollowsItsRule : Prop :=
  ∀ (s : State) (a : Operand),
    encode (.out a) = [((4 + 100 * a.mode.digit : Nat) : Int), a.raw] ∧
    decodeFlags (.out a) s = s.setHasOut true ∧
    (∀ v, operandVal s a = .ok v →
      ∃ t, exec (.out a) s = .next t ∧ SameButReads (s.setOutReg (some v)) t ∧
        (s.fault = none → s.fHasOut = true → s.fAwaitIn = false → s.fHalted = false →
          endPass t = .next (((t.setOutReg none).setHasOut false).setRet (some (.output v))))) ∧
    (∀ tr, operandVal s a = .error tr →
      ∃ t, exec (.out a) s = .next t ∧ FaultsOnly s t (s.pc - 2) tr) ∧
    (s.Inv → s.fault = none → (s.afterDecode (.out a)).outReg = none)

/-- `JumpIfTrue` (R120): both operands are read, the target is converted only when the condition is not 0, and
a jump that is not taken leaves `pc` behind the instruction; one taken to its own address loops for good. -/
def Obligations.JumpIfTrueFollowsItsRule : Prop :=
  JumpRule .jumpIfTrue (fun x => x ≠ 0) ∧ SelfJumpHangs .jumpIfTrue (fun x => x ≠ 0) ∧
  ∀ a b : Operand, encode (.jumpIfTrue a b) =
    [((5 + 100 * a.mode.digit + 1000 * b.mode.digit : Nat) : Int), a.raw, b.raw]

/-- `JumpIfFalse` (R121): taken when the condition is 0. -/
def Obligations.JumpIfFalseFollowsItsRule : Prop :=
  JumpRule .jumpIfFalse (fun x => x = 0) ∧ SelfJumpHangs .jumpIfFalse (fun x => x = 0) ∧
  ∀ a b : Operand, encode (.jumpIfFalse a b) =
    [((6 + 100 * a.mode.digit + 1000 * b.mode.digit : Nat) : Int), a.raw, b.raw]

/-- `AdjustRelativeBase` (R140): the operand is read with the old `rb`, the sum is a Word sum, and only `rb`
changes; it may become negative; no other instruction writes `rb`. -/
def Obligations.AdjustRelativeBaseFollowsItsRule : Prop :=
  (∀ (s : State) (a : Operand),
    encode (.adjustRelativeBase a) = [((9 + 100 * a.mode.digit : Nat) : Int), a.raw] ∧
    decodeFlags (.adjustRelativeBase a) s = s ∧
    (∀ tr, operandVal s a = .error tr →
      ∃ t, exec (.adjustRelativeBase a) s = .next t ∧ FaultsOnly s t (s.pc - 2) tr) ∧
    (∀ x : Int, operandVal s a = .ok x → s.cfg.width.fits (s.rb + x) = false → s.cfg.overflow = .fault →
      ∃ t, exec (.adjustRelativeBase a) s = .next t ∧
        FaultsOnly s t (s.pc - 2) { cause := .arithOverflow, info := s.rb + x }) ∧
    (∀ x r : Int, operandVal s a = .ok x → NarrowsTo s.cfg (s.rb + x) r →
      ∃ t, exec (.adjustRelativeBase a) s = .next t ∧ SameButReads (s.setRb r) t)) ∧
  ∀ (i : Instr) (s t : State), exec i s = .next t → t.rb ≠ s.rb → ∃ a, i = .adjustRelativeBase a

/-- `Halt` (R141): the only word is 99, decode and execution set the flag, and nothing else changes; every later
`run()` executes it again and returns `Halt`; only `reset()` clears the flag. -/
def Obligations.HaltFollowsItsRule : Prop :=
  encode .halt = [99] ∧ (∀ (w : Word) (ws rest : List Word), decode (w :: ws) = .ok (.halt, rest) → w = 99) ∧
  HaltIsTerminal ∧
  ∀ s : State,
    decodeFlags .halt s = s.setHalted true ∧
    exec .halt s = .next (s.setHalted true) ∧
    (s.fault = none → s.fHalted = true → s.cur = some .halt → step s = .next (s.setRet (some .halt)))

/-- A destination in `Immediate` mode is no fault: the instruction executes in full, its sources read, its
result formed, and the write is discarded (R76). -/
def Obligations.ImmediateDestinationDiscardsWrite : Prop :=
  ∀ (s : State) (a b : Operand) (w : Word),
    (∀ x y : Int, operandVal s a = .ok x → operandVal s b = .ok y →
      (∀ r, NarrowsTo s.cfg (x + y) r →
        ∃ t, exec (.add a b (.immediate w)) s = .next t ∧ SameButReads s t) ∧
      (∀ r, NarrowsTo s.cfg (x * y) r →
        ∃ t, exec (.mul a b (.immediate w)) s = .next t ∧ SameButReads s t) ∧
      (∃ t, exec (.lessThan a b (.immediate w)) s = .next t ∧ SameButReads s t) ∧
      (∃ t, exec (.equal a b (.immediate w)) s = .next t ∧ SameButReads s t)) ∧
    (∀ v, s.inReg = some v →
      exec (.inp (.immediate w)) s = .next ((s.setInReg none).setAwaitIn false))

/-- Who writes what, over all instructions: no instruction changes the configuration, the image, the pending
instruction or what `run()` returned; `rb`, `pc`, `inReg`, `outReg` and the flags each change only under the
instructions named for them; `fault` only to a record that names the instruction's own address; every address
but the effective one of the destination reads as before; and the answer is always a next state. -/
def Obligations.InstructionsWriteOnlyTheirState : Prop :=
  ∀ (i : Instr) (s : State), ∃ t, exec i s = .next t ∧
    t.cfg = s.cfg ∧ t.image = s.image ∧ t.cur = s.cur ∧ t.ret = s.ret ∧ t.fHasOut = s.fHasOut ∧
    (t.rb = s.rb ∨ ∃ a, i = .adjustRelativeBase a) ∧
    (t.pc = s.pc ∨ ∃ a b, i = .jumpIfTrue a b ∨ i = .jumpIfFalse a b) ∧
    (t.inReg = s.inReg ∧ t.fAwaitIn = s.fAwaitIn ∨ ∃ a, i = .inp a) ∧
    (t.outReg = s.outReg ∨ ∃ a, i = .out a) ∧
    (t.fHalted = s.fHalted ∨ i = .halt) ∧
    (t.fault = s.fault ∨ ∃ c x, t.fault = some { cause := c, loc := some (s.pc - i.length), info := x }) ∧
    ∀ a, t.wordAt a = s.wordAt a ∨ ∃ d, destOf i = some d ∧ ea s d = .ok (some a)

/-! ## Decode, tick and fault (30_encoding.md, 60_exceptions.md) -/

/-- The flag each instruction sets at decode (R88). -/
def Obligations.DecodeSetsItsFlag : Prop :=
  ∀ (s : State) (a b c : Operand),
    decodeFlags (.inp a) s = s.setAwaitIn true ∧ decodeFlags (.out a) s = s.setHasOut true ∧
    decodeFlags .halt s = s.setHalted true ∧ decodeFlags (.add a b c) s = s ∧
    decodeFlags (.mul a b c) s = s ∧ decodeFlags (.jumpIfTrue a b) s = s ∧
    decodeFlags (.jumpIfFalse a b) s = s ∧ decodeFlags (.lessThan a b c) s = s ∧
    decodeFlags (.equal a b c) s = s ∧ decodeFlags (.adjustRelativeBase a) s = s

/-- A step runs the decoded instruction: with no fault and no flag pending, when the Words at `pc` decode to
`i` and all of them lie below `MEM_LIMIT`, the step is `exec i` in the state after the decode (`pc` behind
the instruction, its decode-time flag set, `cur` holding it, every address reading as before), and then the
tests of `run()` (R84, R160, R163). -/
def Obligations.StepRunsDecodedInstruction : Prop :=
  ∀ (s : State) (i : Instr) (rest : List Word),
    s.fault = none → s.pending = false → s.pc + i.length ≤ s.cfg.memLimit →
    decode (s.wordsAt s.pc) = .ok (i, rest) →
    step s = afterTick (exec i (s.afterDecode i)) ∧
    (s.afterDecode i).pc = s.pc + i.length ∧ (s.afterDecode i).cur = some i ∧
    (s.afterDecode i).rb = s.rb ∧ (s.afterDecode i).inReg = s.inReg ∧ (s.afterDecode i).outReg = s.outReg ∧
    (s.afterDecode i).fault = none ∧ ∀ a, (s.afterDecode i).wordAt a = s.wordAt a

/-- While a flag is pending a step executes the instruction in `cur` again and fetches nothing, whatever a
`poke` made of memory meanwhile (R160, R59, R34). -/
def Obligations.StepReexecutesPendingInstruction : Prop :=
  ∀ (s : State) (i : Instr), s.fault = none → s.pending = true → s.cur = some i →
    step s = afterTick (exec i s) ∧
    ∀ (n a : Nat) (v : Word), s.inRun = false → a < s.cfg.memLimit →
      (hostOp n (.poke a v) s).1 = .done ∧ (hostOp n (.poke a v) s).2.cur = some i ∧
      step (hostOp n (.poke a v) s).2 = afterTick (exec i (hostOp n (.poke a v) s).2)

/-- Instruction words a step rejects: a negative one and one of 100000 or more (R67, R68) and an unknown base
opcode (R70) with `BadOpcode`; then a mode digit of 3 to 9 for a parameter the instruction has (R71) or a set
one for a parameter it lacks (R72) with `BadMode`. -/
def Obligations.BadInstructionWordFaults : Prop :=
  ∀ s : State, s.fault = none → s.pending = false → s.pc < s.cfg.memLimit →
    ((s.wordAt s.pc < (0 : Int) ∨ (100000 : Int) ≤ s.wordAt s.pc) → RejectsWord s .badOpcode) ∧
    (∀ n : Nat, s.wordAt s.pc = n → n < 100000 → paramCount (n % 100) = none → RejectsWord s .badOpcode) ∧
    (∀ n k : Nat, s.wordAt s.pc = n → n < 100000 → paramCount (n % 100) = some k →
      (badModeDigit k n 1 ∨ badModeDigit k n 2 ∨ badModeDigit k n 3) → RejectsWord s .badMode)

/-- A fetch at or above `MEM_LIMIT` faults `BadAddress` with the address: of the instruction word, or of the
first parameter Word that lies there (R22, R44, R84). -/
def Obligations.FetchAtMemLimitFaults : Prop :=
  ∀ s : State, s.fault = none → s.pending = false →
    (s.cfg.memLimit ≤ s.pc →
      step s = .next ((s.setFault
        (some { cause := .badAddress, loc := some s.pc, info := s.pc })).setRet none)) ∧
    (∀ i rest, s.pc < s.cfg.memLimit → decode (s.wordsAt s.pc) = .ok (i, rest) →
      s.cfg.memLimit < s.pc + i.length →
      ∃ t, step s = .next t ∧
        SameButReads (((s.setPc s.cfg.memLimit).setFault
          (some { cause := .badAddress, loc := some s.pc, info := s.cfg.memLimit })).setRet none) t)

/-- The fault state (R150): a step that enters it returns no interrupt, and a host operation that enters it ends
without a result; in it no step happens and no host operation, `reset()` included, has an effect or a
result. -/
def Obligations.FaultStateIsTerminal : Prop :=
  (∀ (s t : State), step s = .next t → t.fault ≠ none → t.ret = none) ∧
  (∀ (s : State) (n : Nat) (op : HostOp), (hostOp n op s).2.fault ≠ none → (hostOp n op s).1 = .noResult) ∧
  (∀ (s : State) (r : FaultRecord), s.fault = some r →
    step s = .fault (.aborted r) ∧ ∀ n op, hostOp n op s = (.noResult, s))

/-! ## Invariants -/

/-- Every step keeps the invariant of a machine: all its integers are Words, the overlay is canonical, legal
and covered, and without a fault the flags, `cur`, `outReg` and what `run()` returned agree. -/
def Obligations.StepKeepsInvariant : Prop :=
  ∀ s t : State, s.Inv → step s = .next t → t.Inv

/-- Every host operation with Words of the machine's width keeps the invariant (R181; D26). -/
def Obligations.HostOpKeepsInvariant : Prop :=
  ∀ (s : State) (n : Nat) (op : HostOp), s.Inv → op.wf s.cfg.width = true → (hostOp n op s).2.Inv

/-- The invariant holds of `State.reset` (its parameters and its empty image are the model's choice, assumptions 1
and 12) and of every machine built from a program text. -/
def Obligations.ConstructionMeetsInvariant : Prop :=
  State.reset.Inv ∧
  ∀ (cfg : Config) (text : List Char), cfg.wf = true →
    (newMachine cfg text).Inv ∧ (debugMachine cfg text).Inv

/-- With the invariant no step answers anything but a next state, unless the machine is in the fault state:
the two stuck reasons of the model (its choice, assumption 11) are never met (R160, R163). -/
def Obligations.HealthyMachineAlwaysSteps : Prop :=
  ∀ s : State, s.Inv → s.fault = none → ∃ t, step s = .next t

/-- The flag invariant (R33): between host operations at most one flag is set and `fHasOut` is not; after each
tick at most one flag is set. -/
def Obligations.AtMostOneFlagSet : Prop :=
  ∀ s : State, s.Inv → s.fault = none →
    s.oneFlag = true ∧ s.fHasOut = false ∧
    ∀ t, tick s = .next t → t.fault = none → t.oneFlag = true

/-! ## The run loop (60_exceptions.md) -/

/-- Run after Halt (R164): one tick, `Halt` again, the state unchanged; and nothing but `reset()` clears
`fHalted`. -/
def Obligations.HaltedMachineStaysHalted : Prop :=
  (∀ s : State, s.Inv → s.fault = none → s.fHalted = true →
    ∀ n, hostOp n .run s = (.interrupt .halt, s)) ∧
  (∀ s t : State, step s = .next t → s.fHalted = true → t.fHalted = true) ∧ HaltIsTerminal

/-- Output hand-over (R165): the step that executes an `Out` returns its Word, leaves `fHasOut` and `outReg`
clear, and the next step decodes at the address after the `Out`. -/
def Obligations.OutputIsHandedOverOnce : Prop :=
  ∀ (s : State) (a : Operand) (rest : List Word) (v : Word),
    s.Inv → s.fault = none → s.pending = false → s.pc + 2 ≤ s.cfg.memLimit →
    decode (s.wordsAt s.pc) = .ok (.out a, rest) → operandVal s a = .ok v →
    ∃ t, step s = .next t ∧ t.ret = some (.output v) ∧ t.fHasOut = false ∧ t.outReg = none ∧
      t.fault = none ∧ t.pending = false ∧ t.pc = s.pc + 2 ∧
      tick t = (match decodeStep t with
        | .ok i u => exec i (u.setCur (some i))
        | .raise trap u => .next (takeFault (some (s.pc + 2)) trap u))

/-- Interrupt completeness (R170): what `run()` returns is `Input`, `Output(v)` or `Halt`, and the flag it
reports was set when the last tick ended. -/
def Obligations.RunReturnsOnlyARaisedInterrupt : Prop :=
  ∀ (n : Nat) (s t : State) (i : Interrupt), runFor n s = (.interrupt i, t) →
    ∃ u v, tick u = .next v ∧ v.fault = none ∧ i.raisedIn v ∧ endPass v = .next t ∧ t.ret = some i

/-- Repeated reset and execution (R182): whatever two machines built from one text went through without faulting,
after `reset()` the same completed calls of the host give the same replies (interrupts, outputs and peeked Words)
and leave the same state, all of memory included; the machines may differ in the backend (R49) and in tracing
(R162), and then the states agree up to these and the dense length. It rests on every instruction and on
`reset()`: a step that wrote the image, that read the backend or the dense length, or a `reset()` that kept a
register would refute it. -/
def Obligations.ResetThenSameCallsRepeat : Prop :=
  ∀ (cfg : Config) (b : Backend) (text : List Char) (m m' s s' : State) (n n' : Nat), cfg.wf = true →
    (m = newMachine cfg text ∨ m = debugMachine cfg text) →
    (m' = newMachine { cfg with backend := b } text ∨ m' = debugMachine { cfg with backend := b } text) →
    Reach m s → s.fault = none → s.inRun = false →
    Reach m' s' → s'.fault = none → s'.inRun = false →
    ∀ (ops : List HostOp) (rs rs' : List HostReply) (t t' : State),
      Session (hostOp n .reset s).2 ops rs t → Session (hostOp n' .reset s').2 ops rs' t' →
      rs = rs' ∧ (m = m' → t = t') ∧
      (t.withTrace false).forgetBackend = (t'.withTrace false).forgetBackend

/-- No timeout (R171): in a machine that never raises a flag and never faults, `run()` ticks for good. -/
def Obligations.RunHasNoTimeout : Prop :=
  ∀ s : State, s.Inv → s.fault = none → (∀ t, Steps s t → t.fault = none ∧ t.ret = none) → RunHangs s

/-! ## Host operations and construction (60_exceptions.md, 70_reset_and_hazards.md) -/

/-- Between two `run()` calls `set_input(v)` fills the input register, replacing what it held, and changes nothing else (R166). -/
def Obligations.SetInputFillsRegister : Prop :=
  ∀ (s : State) (n : Nat) (v : Word), s.fault = none → s.inRun = false →
    hostOp n (.setInput v) s = (.done, s.setInReg (some v))

/-- `peek` and `poke` (R167, R168), between two `run()` calls: a legal address is read without changing any value, or written with
nothing else changed (the image, `cur` and every register among it); at or above `MEM_LIMIT` both fault
`BadAddress` with no instruction address. -/
def Obligations.PeekAndPokeReachMemory : Prop :=
  ∀ (s : State) (n a : Nat) (v : Word), s.fault = none → s.inRun = false →
    (a < s.cfg.memLimit → ∃ t, hostOp n (.peek a) s = (.word (s.wordAt a), t) ∧ SameButReads s t) ∧
    (a < s.cfg.memLimit → ∃ t, hostOp n (.poke a v) s = (.done, t) ∧ StoresOnly s t (some a) v) ∧
    (s.cfg.memLimit ≤ a →
      hostOp n (.peek a) s = (.noResult, s.setFault (some { cause := .badAddress, loc := none, info := a })) ∧
      hostOp n (.poke a v) s = (.noResult, s.setFault (some { cause := .badAddress, loc := none, info := a })))

/-- `new` and `debug` (R190): the parsed image, the overlay unset everywhere, and every register at its
construction value; the two differ in `TRACE` alone. -/
def Obligations.ConstructionValues : Prop :=
  ∀ (cfg : Config) (text : List Char),
    (newMachine cfg text).image = parse cfg.width text ∧
    (newMachine cfg text).overlay = { cells := [], len := (parse cfg.width text).length } ∧
    (newMachine cfg text).pc = 0 ∧ (newMachine cfg text).rb = 0 ∧
    (newMachine cfg text).fAwaitIn = false ∧ (newMachine cfg text).fHasOut = false ∧
    (newMachine cfg text).fHalted = false ∧ (newMachine cfg text).inReg = none ∧
    (newMachine cfg text).outReg = none ∧ (newMachine cfg text).cur = none ∧
    (newMachine cfg text).fault = none ∧ (newMachine cfg text).cfg = { cfg with trace := false } ∧
    debugMachine cfg text = (newMachine cfg text).withTrace true

/-- `reset()` (R192): on a healthy machine, between two `run()` calls, every component but the image and the configuration is back at its
construction value, every address reads as the image or zero, and `pc` is 0; on a faulted
machine it has no effect. -/
def Obligations.ResetRestoresConstructionValues : Prop :=
  (∀ (s : State) (n : Nat), s.fault ≠ none → hostOp n .reset s = (.noResult, s)) ∧
  ∀ (s : State) (n : Nat), s.fault = none → s.inRun = false →
    (hostOp n .reset s).1 = .done ∧
    (hostOp n .reset s).2.image = s.image ∧ (hostOp n .reset s).2.cfg = s.cfg ∧
    (hostOp n .reset s).2.overlay = backendReset s.cfg.backend s.image.length s.overlay ∧
    (∀ a, (hostOp n .reset s).2.wordAt a = s.image.getD a 0) ∧
    (hostOp n .reset s).2.pc = 0 ∧ (hostOp n .reset s).2.rb = 0 ∧
    (hostOp n .reset s).2.fAwaitIn = false ∧ (hostOp n .reset s).2.fHasOut = false ∧
    (hostOp n .reset s).2.fHalted = false ∧ (hostOp n .reset s).2.inReg = none ∧
    (hostOp n .reset s).2.outReg = none ∧ (hostOp n .reset s).2.cur = none ∧ (hostOp n .reset s).2.fault = none

/-- Memory reset (R63): after a `poke` and a `reset`, `peek` gives the original Word of the image. -/
def Obligations.PokeIsUndoneByReset : Prop :=
  ∀ (s : State) (n a b : Nat) (v : Word), s.fault = none → s.inRun = false → a < s.cfg.memLimit →
    b < s.cfg.memLimit →
    (hostOp n (.peek b) (hostOp n .reset (hostOp n (.poke a v) s).2).2).1 = .word (s.image.getD b 0)

/-- Reset equivalence: whatever a host did with a machine short of faulting it, `reset()` gives the very state
`new` or `debug` built. R194 says that the results agree and allows the dense length to differ; that the states
are equal, the length too, rests on R41, whose reset goes back to length `N`, and on R35. -/
def Obligations.ResetEqualsFreshMachine : Prop :=
  ∀ (cfg : Config) (text : List Char) (s : State) (n : Nat), cfg.wf = true → s.fault = none → s.inRun = false →
    (Reach (newMachine cfg text) s → (hostOp n .reset s).2 = newMachine cfg text) ∧
    (Reach (debugMachine cfg text) s → (hostOp n .reset s).2 = debugMachine cfg text)

/-- Loading (R91): the image of a text is the images of its parts on both sides of a comma; a text without a
comma is one token, kept or dropped; and a token is kept exactly when, without its blanks, it is an optional
sign and one or more decimal digits whose value is a Word, which it then is. -/
def Obligations.ProgramTextLoadsItsTokens : Prop :=
  (∀ (w : Width) (t u : List Char), parse w (t ++ ',' :: u) = parse w t ++ parse w u) ∧
  (∀ (w : Width) (t : List Char), ',' ∉ t → parse w t = (tokenWord w t).toList) ∧
  (∀ (w : Width) (t : List Char) (v : Int), tokenWord w t = some v ↔ ReadsAs t v ∧ w.fits v = true)

/-! ## What no result depends on -/

/-- The backend is unobservable (R8, R49): two machines that differ only in the backend and its dense length
answer every step alike, again up to these. -/
def Obligations.StepIgnoresBackend : Prop :=
  ∀ s t : State, s.forgetBackend = t.forgetBackend →
    mapNext State.forgetBackend (step s) = mapNext State.forgetBackend (step t)

/-- Tracing changes no state and no result (R162). -/
def Obligations.StepIgnoresTrace : Prop :=
  ∀ (s : State) (b : Bool), step (s.withTrace b) = mapNext (fun t => t.withTrace b) (step s)

/-- A wider Word changes nothing but overflow (R8): under `OVERFLOW = Fault`, a step that does not fault with
`ArithOverflow` is the same step at every greater width. -/
def Obligations.StepAtGreaterWidthAgrees : Prop :=
  ∀ (s t : State) (w : Width), s.cfg.overflow = .fault → s.cfg.width.bits ≤ w.bits → step s = .next t →
    (∀ r, t.fault = some r → r.cause ≠ .arithOverflow) →
    step (s.withWidth w) = .next (t.withWidth w)

/-- Machines of one process (R62, R154): an operation on one machine leaves every other as it was, and after a
fault in any machine no operation on any of them has an effect or a result. -/
def Obligations.MachinesShareNothingButFaults : Prop :=
  ∀ (ms : List State) (k n : Nat) (op : HostOp),
    (∀ j, j ≠ k → (processOp k n op ms).2[j]? = ms[j]?) ∧
    ((∃ m ∈ ms, m.fault ≠ none) → processOp k n op ms = (.noResult, ms)) ∧
    (∀ m, (∀ x ∈ ms, x.fault = none) → ms[k]? = some m →
      (processOp k n op ms).1 = (hostOp n op m).1 ∧ (processOp k n op ms).2[k]? = some (hostOp n op m).2)

/-- Host operations are serial (R169) and the host cannot run one tick alone (R179): while `run()` is executing no
other operation begins, however long the model has followed it; followed on, it is the same `run()`, so where
the model stopped following is not seen; once it has returned it is no longer executing; and every other
operation completes at once. That a `run()` is executing is read off the state by `State.inRun`
(assumption 19). -/
def Obligations.HostActsOnlyBetweenRuns : Prop :=
  (∀ (s t : State) (n : Nat), hostOp n .run s = (.running, t) →
    t.inRun = true ∧ ∀ m, hostOp m .run t = hostOp (n + 1 + m) .run s) ∧
  (∀ (s : State) (n : Nat) (op : HostOp), s.inRun = true → op ≠ .run → hostOp n op s = (.running, s)) ∧
  (∀ (s t : State) (n : Nat) (i : Interrupt), hostOp n .run s = (.interrupt i, t) → t.inRun = false) ∧
  (∀ (s : State) (n : Nat) (op : HostOp), s.inRun = false → op ≠ .run →
    (hostOp n op s).1 ≠ .running ∧ (hostOp n op s).2.inRun = false) ∧
  (∀ (cfg : Config) (text : List Char),
    (newMachine cfg text).inRun = false ∧ (debugMachine cfg text).inRun = false)
end

