-- ==== Sys2Proof/Laws/Alu.lean ====
section
/-! SUPPORT. What the Word primitives answer (00_scope.md R13, R14), said once. -/

namespace Sys2Proof

theorem Width.half_pos (w : Width) : 0 < w.half := by cases w <;> decide

theorem Width.fits_iff (w : Width) (r : Int) : w.fits r = true ↔ w.wmin ≤ r ∧ r ≤ w.wmax := by
  simp [Width.fits]

theorem Width.fits_zero (w : Width) : w.fits 0 = true := by cases w <;> decide

theorem Width.fits_one (w : Width) : w.fits 1 = true := by cases w <;> decide

/-- A wider Word holds every narrower one (R7). -/
theorem Width.fits_mono {w w' : Width} (h : w.bits ≤ w'.bits) {r : Int} (hf : w.fits r = true) :
    w'.fits r = true := by
  have hh : w.half ≤ w'.half := by cases w <;> cases w' <;> first | decide | (simp [Width.bits] at h)
  rw [Width.fits_iff] at hf ⊢
  simp only [Width.wmin, Width.wmax] at hf ⊢
  omega

end Sys2Proof

namespace Sys2Proof.Machine

/-- The wrapped result is a Word (R14). -/
theorem wrapWord_fits (w : Width) (r : Int) : w.fits (wrapWord w r) = true := by
  have hp := w.half_pos
  rw [Width.fits_iff]
  simp only [Width.wmin, Width.wmax, wrapWord]
  have h1 := Int.emod_nonneg (r + w.half) (b := 2 * w.half) (by omega)
  have h2 := Int.emod_lt_of_pos (r + w.half) (b := 2 * w.half) (by omega)
  omega

/-- The wrapped result is congruent to the exact one modulo `2^W` (R14). -/
theorem wrapWord_congr (w : Width) (r : Int) : (r - wrapWord w r) % (2 * w.half) = 0 := by
  have h : r - wrapWord w r = 2 * w.half * ((r + w.half) / (2 * w.half)) := by
    have := Int.emod_add_mul_ediv (r + w.half) (2 * w.half)
    simp only [wrapWord]; omega
  rw [h]; exact Int.mul_emod_right _ _

theorem narrow_fits {cfg : Config} {r : Int} (h : cfg.width.fits r = true) : narrow cfg r = .ok r := by
  simp [narrow, h]

/-- A Word that `narrow` answers is in range. -/
theorem narrow_ok_fits {cfg : Config} {r : Int} {v : Word} (h : narrow cfg r = .ok v) :
    cfg.width.fits v = true := by
  unfold narrow at h
  split at h
  · rename_i hf; cases h; exact hf
  · split at h
    · cases h
    · cases h; exact wrapWord_fits _ _

/-- The only trap of `narrow`: an exact result out of range under `OVERFLOW = Fault`. -/
theorem narrow_error {cfg : Config} {r : Int} {t : Trap} (h : narrow cfg r = .error t) :
    cfg.width.fits r = false ∧ cfg.overflow = .fault ∧ t = { cause := .arithOverflow, info := r } := by
  unfold narrow at h
  split at h
  · cases h
  · rename_i hf
    split at h
    · rename_i ho; cases h; exact ⟨by simpa using hf, ho, rfl⟩
    · cases h

theorem addrOf_ok {cfg : Config} {w : Int} (h0 : 0 ≤ w) (h1 : w < cfg.memLimit) :
    addrOf cfg w = .ok w.toNat := by
  rw [addrOf, if_neg (by omega)]

theorem addrOf_error {cfg : Config} {w : Int} (h : w < 0 ∨ (cfg.memLimit : Int) ≤ w) :
    addrOf cfg w = .error { cause := .badAddress, info := w } := by simp [addrOf, h]

/-- An address that `addrOf` answers is legal (R44). -/
theorem addrOf_legal {cfg : Config} {w : Int} {a : Nat} (h : addrOf cfg w = .ok a) :
    a < cfg.memLimit := by
  unfold addrOf at h
  split at h
  · cases h
  · cases h; omega

/-- The only trap of `addrOf` (R13). -/
theorem addrOf_trap {cfg : Config} {w : Int} {t : Trap} (h : addrOf cfg w = .error t) :
    (w < 0 ∨ (cfg.memLimit : Int) ≤ w) ∧ t = { cause := .badAddress, info := w } := by
  unfold addrOf at h
  split at h
  · rename_i hc; cases h; exact ⟨hc, rfl⟩
  · cases h

theorem wordOfBool_fits (w : Width) (c : Bool) : w.fits (wordOfBool c) = true := by
  cases c
  · exact w.fits_zero
  · exact w.fits_one

end Sys2Proof.Machine
end

