-- ==== Sys2Proof/Laws/Decode.lean ====
section
/-! SUPPORT. Facts about the fields of an instruction word (30_encoding.md R66, R71, R92) that a proof about the decoder
or the encoder cites. -/

namespace Sys2Proof

@[simp] theorem modeOfDigit_digit (m : Mode) : modeOfDigit m.digit = some m := by cases m <;> rfl

/-- A digit that selects a mode is that mode's digit (R71). -/
theorem modeOfDigit_eq {d : Nat} {m : Mode} (h : modeOfDigit d = some m) : d = m.digit := by
  unfold modeOfDigit at h
  split at h <;> first | (cases h; rfl) | cases h

theorem modeOfDigit_none {d : Nat} : modeOfDigit d = none ↔ 2 < d := by
  match d with
  | 0 => simp [modeOfDigit]
  | 1 => simp [modeOfDigit]
  | 2 => simp [modeOfDigit]
  | n + 3 => simp [modeOfDigit]

theorem mode_digit_le (m : Mode) : m.digit ≤ 2 := by cases m <;> decide

@[simp] theorem decodeOperand_mode_raw (o : Operand) : decodeOperand o.mode o.raw = o := by cases o <;> rfl

@[simp] theorem mode_decodeOperand (m : Mode) (w : Word) : (decodeOperand m w).mode = m := by cases m <;> rfl

@[simp] theorem raw_decodeOperand (m : Mode) (w : Word) : (decodeOperand m w).raw = w := by cases m <;> rfl

/-- The fields of the word `OP + 100*A + 1000*B + 10000*C` (R66). -/
theorem digits_of_word (op a b c : Nat) (ho : op < 100) (ha : a < 10) (hb : b < 10) (hc : c < 10) :
    op + 100 * a + 1000 * b + 10000 * c < 100000 ∧
    (op + 100 * a + 1000 * b + 10000 * c) % 100 = op ∧
    digit 2 (op + 100 * a + 1000 * b + 10000 * c) = a ∧
    digit 3 (op + 100 * a + 1000 * b + 10000 * c) = b ∧
    digit 4 (op + 100 * a + 1000 * b + 10000 * c) = c := by
  simp only [digit]
  omega

/-- A word below 100000 is made of its fields (R66). -/
theorem word_of_digits {n : Nat} (h : n < 100000) :
    n = n % 100 + 100 * digit 2 n + 1000 * digit 3 n + 10000 * digit 4 n := by
  simp only [digit]
  omega

/-- The instruction word of an encoding, for any three modes: what `decodeHead` makes of it (R84). -/
theorem decodeHead_word {op : Nat} {o : Op} (a b c : Nat) (ho : op < 100) (hop : opOf op = some o)
    (ha : a < 10) (hb : b < 10) (hc : c < 10) (h : Head)
    (hm : headModes o (op + 100 * a + 1000 * b + 10000 * c) = some h) :
    decodeHead ((op + 100 * a + 1000 * b + 10000 * c : Nat) : Int) = .ok h := by
  obtain ⟨hlt, hmod, -, -, -⟩ := digits_of_word op a b c ho ha hb hc
  generalize op + 100 * a + 1000 * b + 10000 * c = n at hlt hmod hm ⊢
  have hn : ¬ ((n : Int) < 0 ∨ (100000 : Int) ≤ n) := by omega
  rw [decodeHead, if_neg hn]
  simp only [Int.toNat_natCast, hmod, hop, hm]

end Sys2Proof
end

