-- ==== Sys2Proof/Laws/State.lean ====
section
/-! SUPPORT. One lemma per field per update of State, so that no proof unfolds a record update. -/

namespace Sys2Proof.Machine

@[simp] theorem State.setOverlay_cfg (s : State) (v : Memory) : (s.setOverlay v).cfg = s.cfg := rfl
@[simp] theorem State.setOverlay_image (s : State) (v : Memory) : (s.setOverlay v).image = s.image := rfl
@[simp] theorem State.setOverlay_overlay (s : State) (v : Memory) : (s.setOverlay v).overlay = v := rfl
@[simp] theorem State.setOverlay_pc (s : State) (v : Memory) : (s.setOverlay v).pc = s.pc := rfl
@[simp] theorem State.setOverlay_rb (s : State) (v : Memory) : (s.setOverlay v).rb = s.rb := rfl
@[simp] theorem State.setOverlay_fAwaitIn (s : State) (v : Memory) : (s.setOverlay v).fAwaitIn = s.fAwaitIn := rfl
@[simp] theorem State.setOverlay_fHasOut (s : State) (v : Memory) : (s.setOverlay v).fHasOut = s.fHasOut := rfl
@[simp] theorem State.setOverlay_fHalted (s : State) (v : Memory) : (s.setOverlay v).fHalted = s.fHalted := rfl
@[simp] theorem State.setOverlay_inReg (s : State) (v : Memory) : (s.setOverlay v).inReg = s.inReg := rfl
@[simp] theorem State.setOverlay_outReg (s : State) (v : Memory) : (s.setOverlay v).outReg = s.outReg := rfl
@[simp] theorem State.setOverlay_cur (s : State) (v : Memory) : (s.setOverlay v).cur = s.cur := rfl
@[simp] theorem State.setOverlay_fault (s : State) (v : Memory) : (s.setOverlay v).fault = s.fault := rfl
@[simp] theorem State.setOverlay_ret (s : State) (v : Memory) : (s.setOverlay v).ret = s.ret := rfl

@[simp] theorem State.setPc_cfg (s : State) (v : Nat) : (s.setPc v).cfg = s.cfg := rfl
@[simp] theorem State.setPc_image (s : State) (v : Nat) : (s.setPc v).image = s.image := rfl
@[simp] theorem State.setPc_overlay (s : State) (v : Nat) : (s.setPc v).overlay = s.overlay := rfl
@[simp] theorem State.setPc_pc (s : State) (v : Nat) : (s.setPc v).pc = v := rfl
@[simp] theorem State.setPc_rb (s : State) (v : Nat) : (s.setPc v).rb = s.rb := rfl
@[simp] theorem State.setPc_fAwaitIn (s : State) (v : Nat) : (s.setPc v).fAwaitIn = s.fAwaitIn := rfl
@[simp] theorem State.setPc_fHasOut (s : State) (v : Nat) : (s.setPc v).fHasOut = s.fHasOut := rfl
@[simp] theorem State.setPc_fHalted (s : State) (v : Nat) : (s.setPc v).fHalted = s.fHalted := rfl
@[simp] theorem State.setPc_inReg (s : State) (v : Nat) : (s.setPc v).inReg = s.inReg := rfl
@[simp] theorem State.setPc_outReg (s : State) (v : Nat) : (s.setPc v).outReg = s.outReg := rfl
@[simp] theorem State.setPc_cur (s : State) (v : Nat) : (s.setPc v).cur = s.cur := rfl
@[simp] theorem State.setPc_fault (s : State) (v : Nat) : (s.setPc v).fault = s.fault := rfl
@[simp] theorem State.setPc_ret (s : State) (v : Nat) : (s.setPc v).ret = s.ret := rfl

@[simp] theorem State.setRb_cfg (s : State) (v : Word) : (s.setRb v).cfg = s.cfg := rfl
@[simp] theorem State.setRb_image (s : State) (v : Word) : (s.setRb v).image = s.image := rfl
@[simp] theorem State.setRb_overlay (s : State) (v : Word) : (s.setRb v).overlay = s.overlay := rfl
@[simp] theorem State.setRb_pc (s : State) (v : Word) : (s.setRb v).pc = s.pc := rfl
@[simp] theorem State.setRb_rb (s : State) (v : Word) : (s.setRb v).rb = v := rfl
@[simp] theorem State.setRb_fAwaitIn (s : State) (v : Word) : (s.setRb v).fAwaitIn = s.fAwaitIn := rfl
@[simp] theorem State.setRb_fHasOut (s : State) (v : Word) : (s.setRb v).fHasOut = s.fHasOut := rfl
@[simp] theorem State.setRb_fHalted (s : State) (v : Word) : (s.setRb v).fHalted = s.fHalted := rfl
@[simp] theorem State.setRb_inReg (s : State) (v : Word) : (s.setRb v).inReg = s.inReg := rfl
@[simp] theorem State.setRb_outReg (s : State) (v : Word) : (s.setRb v).outReg = s.outReg := rfl
@[simp] theorem State.setRb_cur (s : State) (v : Word) : (s.setRb v).cur = s.cur := rfl
@[simp] theorem State.setRb_fault (s : State) (v : Word) : (s.setRb v).fault = s.fault := rfl
@[simp] theorem State.setRb_ret (s : State) (v : Word) : (s.setRb v).ret = s.ret := rfl

@[simp] theorem State.setAwaitIn_cfg (s : State) (v : Bool) : (s.setAwaitIn v).cfg = s.cfg := rfl
@[simp] theorem State.setAwaitIn_image (s : State) (v : Bool) : (s.setAwaitIn v).image = s.image := rfl
@[simp] theorem State.setAwaitIn_overlay (s : State) (v : Bool) : (s.setAwaitIn v).overlay = s.overlay := rfl
@[simp] theorem State.setAwaitIn_pc (s : State) (v : Bool) : (s.setAwaitIn v).pc = s.pc := rfl
@[simp] theorem State.setAwaitIn_rb (s : State) (v : Bool) : (s.setAwaitIn v).rb = s.rb := rfl
@[simp] theorem State.setAwaitIn_fAwaitIn (s : State) (v : Bool) : (s.setAwaitIn v).fAwaitIn = v := rfl
@[simp] theorem State.setAwaitIn_fHasOut (s : State) (v : Bool) : (s.setAwaitIn v).fHasOut = s.fHasOut := rfl
@[simp] theorem State.setAwaitIn_fHalted (s : State) (v : Bool) : (s.setAwaitIn v).fHalted = s.fHalted := rfl
@[simp] theorem State.setAwaitIn_inReg (s : State) (v : Bool) : (s.setAwaitIn v).inReg = s.inReg := rfl
@[simp] theorem State.setAwaitIn_outReg (s : State) (v : Bool) : (s.setAwaitIn v).outReg = s.outReg := rfl
@[simp] theorem State.setAwaitIn_cur (s : State) (v : Bool) : (s.setAwaitIn v).cur = s.cur := rfl
@[simp] theorem State.setAwaitIn_fault (s : State) (v : Bool) : (s.setAwaitIn v).fault = s.fault := rfl
@[simp] theorem State.setAwaitIn_ret (s : State) (v : Bool) : (s.setAwaitIn v).ret = s.ret := rfl

@[simp] theorem State.setHasOut_cfg (s : State) (v : Bool) : (s.setHasOut v).cfg = s.cfg := rfl
@[simp] theorem State.setHasOut_image (s : State) (v : Bool) : (s.setHasOut v).image = s.image := rfl
@[simp] theorem State.setHasOut_overlay (s : State) (v : Bool) : (s.setHasOut v).overlay = s.overlay := rfl
@[simp] theorem State.setHasOut_pc (s : State) (v : Bool) : (s.setHasOut v).pc = s.pc := rfl
@[simp] theorem State.setHasOut_rb (s : State) (v : Bool) : (s.setHasOut v).rb = s.rb := rfl
@[simp] theorem State.setHasOut_fAwaitIn (s : State) (v : Bool) : (s.setHasOut v).fAwaitIn = s.fAwaitIn := rfl
@[simp] theorem State.setHasOut_fHasOut (s : State) (v : Bool) : (s.setHasOut v).fHasOut = v := rfl
@[simp] theorem State.setHasOut_fHalted (s : State) (v : Bool) : (s.setHasOut v).fHalted = s.fHalted := rfl
@[simp] theorem State.setHasOut_inReg (s : State) (v : Bool) : (s.setHasOut v).inReg = s.inReg := rfl
@[simp] theorem State.setHasOut_outReg (s : State) (v : Bool) : (s.setHasOut v).outReg = s.outReg := rfl
@[simp] theorem State.setHasOut_cur (s : State) (v : Bool) : (s.setHasOut v).cur = s.cur := rfl
@[simp] theorem State.setHasOut_fault (s : State) (v : Bool) : (s.setHasOut v).fault = s.fault := rfl
@[simp] theorem State.setHasOut_ret (s : State) (v : Bool) : (s.setHasOut v).ret = s.ret := rfl

@[simp] theorem State.setHalted_cfg (s : State) (v : Bool) : (s.setHalted v).cfg = s.cfg := rfl
@[simp] theorem State.setHalted_image (s : State) (v : Bool) : (s.setHalted v).image = s.image := rfl
@[simp] theorem State.setHalted_overlay (s : State) (v : Bool) : (s.setHalted v).overlay = s.overlay := rfl
@[simp] theorem State.setHalted_pc (s : State) (v : Bool) : (s.setHalted v).pc = s.pc := rfl
@[simp] theorem State.setHalted_rb (s : State) (v : Bool) : (s.setHalted v).rb = s.rb := rfl
@[simp] theorem State.setHalted_fAwaitIn (s : State) (v : Bool) : (s.setHalted v).fAwaitIn = s.fAwaitIn := rfl
@[simp] theorem State.setHalted_fHasOut (s : State) (v : Bool) : (s.setHalted v).fHasOut = s.fHasOut := rfl
@[simp] theorem State.setHalted_fHalted (s : State) (v : Bool) : (s.setHalted v).fHalted = v := rfl
@[simp] theorem State.setHalted_inReg (s : State) (v : Bool) : (s.setHalted v).inReg = s.inReg := rfl
@[simp] theorem State.setHalted_outReg (s : State) (v : Bool) : (s.setHalted v).outReg = s.outReg := rfl
@[simp] theorem State.setHalted_cur (s : State) (v : Bool) : (s.setHalted v).cur = s.cur := rfl
@[simp] theorem State.setHalted_fault (s : State) (v : Bool) : (s.setHalted v).fault = s.fault := rfl
@[simp] theorem State.setHalted_ret (s : State) (v : Bool) : (s.setHalted v).ret = s.ret := rfl

@[simp] theorem State.setInReg_cfg (s : State) (v : Option Word) : (s.setInReg v).cfg = s.cfg := rfl
@[simp] theorem State.setInReg_image (s : State) (v : Option Word) : (s.setInReg v).image = s.image := rfl
@[simp] theorem State.setInReg_overlay (s : State) (v : Option Word) : (s.setInReg v).overlay = s.overlay := rfl
@[simp] theorem State.setInReg_pc (s : State) (v : Option Word) : (s.setInReg v).pc = s.pc := rfl
@[simp] theorem State.setInReg_rb (s : State) (v : Option Word) : (s.setInReg v).rb = s.rb := rfl
@[simp] theorem State.setInReg_fAwaitIn (s : State) (v : Option Word) : (s.setInReg v).fAwaitIn = s.fAwaitIn := rfl
@[simp] theorem State.setInReg_fHasOut (s : State) (v : Option Word) : (s.setInReg v).fHasOut = s.fHasOut := rfl
@[simp] theorem State.setInReg_fHalted (s : State) (v : Option Word) : (s.setInReg v).fHalted = s.fHalted := rfl
@[simp] theorem State.setInReg_inReg (s : State) (v : Option Word) : (s.setInReg v).inReg = v := rfl
@[simp] theorem State.setInReg_outReg (s : State) (v : Option Word) : (s.setInReg v).outReg = s.outReg := rfl
@[simp] theorem State.setInReg_cur (s : State) (v : Option Word) : (s.setInReg v).cur = s.cur := rfl
@[simp] theorem State.setInReg_fault (s : State) (v : Option Word) : (s.setInReg v).fault = s.fault := rfl
@[simp] theorem State.setInReg_ret (s : State) (v : Option Word) : (s.setInReg v).ret = s.ret := rfl

@[simp] theorem State.setOutReg_cfg (s : State) (v : Option Word) : (s.setOutReg v).cfg = s.cfg := rfl
@[simp] theorem State.setOutReg_image (s : State) (v : Option Word) : (s.setOutReg v).image = s.image := rfl
@[simp] theorem State.setOutReg_overlay (s : State) (v : Option Word) : (s.setOutReg v).overlay = s.overlay := rfl
@[simp] theorem State.setOutReg_pc (s : State) (v : Option Word) : (s.setOutReg v).pc = s.pc := rfl
@[simp] theorem State.setOutReg_rb (s : State) (v : Option Word) : (s.setOutReg v).rb = s.rb := rfl
@[simp] theorem State.setOutReg_fAwaitIn (s : State) (v : Option Word) : (s.setOutReg v).fAwaitIn = s.fAwaitIn := rfl
@[simp] theorem State.setOutReg_fHasOut (s : State) (v : Option Word) : (s.setOutReg v).fHasOut = s.fHasOut := rfl
@[simp] theorem State.setOutReg_fHalted (s : State) (v : Option Word) : (s.setOutReg v).fHalted = s.fHalted := rfl
@[simp] theorem State.setOutReg_inReg (s : State) (v : Option Word) : (s.setOutReg v).inReg = s.inReg := rfl
@[simp] theorem State.setOutReg_outReg (s : State) (v : Option Word) : (s.setOutReg v).outReg = v := rfl
@[simp] theorem State.setOutReg_cur (s : State) (v : Option Word) : (s.setOutReg v).cur = s.cur := rfl
@[simp] theorem State.setOutReg_fault (s : State) (v : Option Word) : (s.setOutReg v).fault = s.fault := rfl
@[simp] theorem State.setOutReg_ret (s : State) (v : Option Word) : (s.setOutReg v).ret = s.ret := rfl

@[simp] theorem State.setCur_cfg (s : State) (v : Option Instr) : (s.setCur v).cfg = s.cfg := rfl
@[simp] theorem State.setCur_image (s : State) (v : Option Instr) : (s.setCur v).image = s.image := rfl
@[simp] theorem State.setCur_overlay (s : State) (v : Option Instr) : (s.setCur v).overlay = s.overlay := rfl
@[simp] theorem State.setCur_pc (s : State) (v : Option Instr) : (s.setCur v).pc = s.pc := rfl
@[simp] theorem State.setCur_rb (s : State) (v : Option Instr) : (s.setCur v).rb = s.rb := rfl
@[simp] theorem State.setCur_fAwaitIn (s : State) (v : Option Instr) : (s.setCur v).fAwaitIn = s.fAwaitIn := rfl
@[simp] theorem State.setCur_fHasOut (s : State) (v : Option Instr) : (s.setCur v).fHasOut = s.fHasOut := rfl
@[simp] theorem State.setCur_fHalted (s : State) (v : Option Instr) : (s.setCur v).fHalted = s.fHalted := rfl
@[simp] theorem State.setCur_inReg (s : State) (v : Option Instr) : (s.setCur v).inReg = s.inReg := rfl
@[simp] theorem State.setCur_outReg (s : State) (v : Option Instr) : (s.setCur v).outReg = s.outReg := rfl
@[simp] theorem State.setCur_cur (s : State) (v : Option Instr) : (s.setCur v).cur = v := rfl
@[simp] theorem State.setCur_fault (s : State) (v : Option Instr) : (s.setCur v).fault = s.fault := rfl
@[simp] theorem State.setCur_ret (s : State) (v : Option Instr) : (s.setCur v).ret = s.ret := rfl

@[simp] theorem State.setFault_cfg (s : State) (v : Option FaultRecord) : (s.setFault v).cfg = s.cfg := rfl
@[simp] theorem State.setFault_image (s : State) (v : Option FaultRecord) : (s.setFault v).image = s.image := rfl
@[simp] theorem State.setFault_overlay (s : State) (v : Option FaultRecord) : (s.setFault v).overlay = s.overlay := rfl
@[simp] theorem State.setFault_pc (s : State) (v : Option FaultRecord) : (s.setFault v).pc = s.pc := rfl
@[simp] theorem State.setFault_rb (s : State) (v : Option FaultRecord) : (s.setFault v).rb = s.rb := rfl
@[simp] theorem State.setFault_fAwaitIn (s : State) (v : Option FaultRecord) : (s.setFault v).fAwaitIn = s.fAwaitIn := rfl
@[simp] theorem State.setFault_fHasOut (s : State) (v : Option FaultRecord) : (s.setFault v).fHasOut = s.fHasOut := rfl
@[simp] theorem State.setFault_fHalted (s : State) (v : Option FaultRecord) : (s.setFault v).fHalted = s.fHalted := rfl
@[simp] theorem State.setFault_inReg (s : State) (v : Option FaultRecord) : (s.setFault v).inReg = s.inReg := rfl
@[simp] theorem State.setFault_outReg (s : State) (v : Option FaultRecord) : (s.setFault v).outReg = s.outReg := rfl
@[simp] theorem State.setFault_cur (s : State) (v : Option FaultRecord) : (s.setFault v).cur = s.cur := rfl
@[simp] theorem State.setFault_fault (s : State) (v : Option FaultRecord) : (s.setFault v).fault = v := rfl
@[simp] theorem State.setFault_ret (s : State) (v : Option FaultRecord) : (s.setFault v).ret = s.ret := rfl

@[simp] theorem State.setRet_cfg (s : State) (v : Option Interrupt) : (s.setRet v).cfg = s.cfg := rfl
@[simp] theorem State.setRet_image (s : State) (v : Option Interrupt) : (s.setRet v).image = s.image := rfl
@[simp] theorem State.setRet_overlay (s : State) (v : Option Interrupt) : (s.setRet v).overlay = s.overlay := rfl
@[simp] theorem State.setRet_pc (s : State) (v : Option Interrupt) : (s.setRet v).pc = s.pc := rfl
@[simp] theorem State.setRet_rb (s : State) (v : Option Interrupt) : (s.setRet v).rb = s.rb := rfl
@[simp] theorem State.setRet_fAwaitIn (s : State) (v : Option Interrupt) : (s.setRet v).fAwaitIn = s.fAwaitIn := rfl
@[simp] theorem State.setRet_fHasOut (s : State) (v : Option Interrupt) : (s.setRet v).fHasOut = s.fHasOut := rfl
@[simp] theorem State.setRet_fHalted (s : State) (v : Option Interrupt) : (s.setRet v).fHalted = s.fHalted := rfl
@[simp] theorem State.setRet_inReg (s : State) (v : Option Interrupt) : (s.setRet v).inReg = s.inReg := rfl
@[simp] theorem State.setRet_outReg (s : State) (v : Option Interrupt) : (s.setRet v).outReg = s.outReg := rfl
@[simp] theorem State.setRet_cur (s : State) (v : Option Interrupt) : (s.setRet v).cur = s.cur := rfl
@[simp] theorem State.setRet_fault (s : State) (v : Option Interrupt) : (s.setRet v).fault = s.fault := rfl
@[simp] theorem State.setRet_ret (s : State) (v : Option Interrupt) : (s.setRet v).ret = v := rfl

@[simp] theorem State.initial_cfg (cfg : Config) (image : List Word) :
    (State.initial cfg image).cfg = cfg := rfl
@[simp] theorem State.initial_image (cfg : Config) (image : List Word) :
    (State.initial cfg image).image = image := rfl
@[simp] theorem State.initial_overlay (cfg : Config) (image : List Word) :
    (State.initial cfg image).overlay = { cells := [], len := image.length } := rfl
@[simp] theorem State.initial_pc (cfg : Config) (image : List Word) :
    (State.initial cfg image).pc = 0 := rfl
@[simp] theorem State.initial_rb (cfg : Config) (image : List Word) :
    (State.initial cfg image).rb = 0 := rfl
@[simp] theorem State.initial_fAwaitIn (cfg : Config) (image : List Word) :
    (State.initial cfg image).fAwaitIn = false := rfl
@[simp] theorem State.initial_fHasOut (cfg : Config) (image : List Word) :
    (State.initial cfg image).fHasOut = false := rfl
@[simp] theorem State.initial_fHalted (cfg : Config) (image : List Word) :
    (State.initial cfg image).fHalted = false := rfl
@[simp] theorem State.initial_inReg (cfg : Config) (image : List Word) :
    (State.initial cfg image).inReg = none := rfl
@[simp] theorem State.initial_outReg (cfg : Config) (image : List Word) :
    (State.initial cfg image).outReg = none := rfl
@[simp] theorem State.initial_cur (cfg : Config) (image : List Word) :
    (State.initial cfg image).cur = none := rfl
@[simp] theorem State.initial_fault (cfg : Config) (image : List Word) :
    (State.initial cfg image).fault = none := rfl
@[simp] theorem State.initial_ret (cfg : Config) (image : List Word) :
    (State.initial cfg image).ret = none := rfl

/-- Two states are the same when every component is (R20 to R29). -/
theorem State.ext_fields {s t : State} (h1 : s.cfg = t.cfg) (h2 : s.image = t.image)
    (h3 : s.overlay = t.overlay) (h4 : s.pc = t.pc) (h5 : s.rb = t.rb) (h6 : s.fAwaitIn = t.fAwaitIn)
    (h7 : s.fHasOut = t.fHasOut) (h8 : s.fHalted = t.fHalted) (h9 : s.inReg = t.inReg)
    (h10 : s.outReg = t.outReg) (h11 : s.cur = t.cur) (h12 : s.fault = t.fault) (h13 : s.ret = t.ret) :
    s = t := by
  cases s; cases t; simp_all

end Sys2Proof.Machine
end

