-- ==== Sys2Proof/Laws/Memory.lean ====
section
/-! SUPPORT. What the backends and the combined address space do (20_memory.md R40 to R49), said once. -/

namespace Sys2Proof.Machine

/-! The list of set addresses. -/

theorem cellsGet_put_same (l : List (Nat × Word)) (a : Nat) (v : Word) :
    cellsGet (cellsPut l a v) a = some v := by
  induction l with
  | nil => simp [cellsPut, cellsGet]
  | cons c r ih =>
    obtain ⟨b, w⟩ := c
    simp only [cellsPut]
    split
    · simp [cellsGet]
    · split
      · simp [cellsGet]
      · rename_i h1 h2
        simp [cellsGet, Ne.symm h2, ih]

theorem cellsGet_put_other (l : List (Nat × Word)) {a b : Nat} (v : Word) (h : b ≠ a) :
    cellsGet (cellsPut l a v) b = cellsGet l b := by
  induction l with
  | nil => simp [cellsPut, cellsGet, Ne.symm h]
  | cons c r ih =>
    obtain ⟨d, w⟩ := c
    simp only [cellsPut]
    split
    · simp [cellsGet, Ne.symm h]
    · split
      · rename_i h1 h2
        subst h2
        simp [cellsGet, Ne.symm h]
      · simp [cellsGet, ih]

theorem risingFrom_put {l : List (Nat × Word)} {a b : Nat} (v : Word) (hb : b < a)
    (h : risingFrom l b = true) : risingFrom (cellsPut l a v) b = true := by
  induction l generalizing b with
  | nil => simpa [cellsPut, risingFrom] using hb
  | cons c r ih =>
    obtain ⟨d, w⟩ := c
    simp only [risingFrom, Bool.and_eq_true, decide_eq_true_eq] at h
    simp only [cellsPut]
    split
    · simp_all [risingFrom]
    · split
      · rename_i h1 h2
        subst h2
        simp_all [risingFrom]
      · simp only [risingFrom, Bool.and_eq_true, decide_eq_true_eq]
        exact ⟨h.1, ih (by omega) h.2⟩

theorem wf_put {m : Memory} (a : Nat) (v : Word) (n : Nat) (h : m.wf = true) :
    Memory.wf { cells := cellsPut m.cells a v, len := n } = true := by
  obtain ⟨l, k⟩ := m
  cases l with
  | nil => rfl
  | cons c r =>
    obtain ⟨d, w⟩ := c
    simp only [Memory.wf] at h
    simp only [cellsPut]
    split
    · rename_i h1
      simpa [Memory.wf, risingFrom, h1] using h
    · split
      · rename_i h1 h2
        subst h2
        simpa [Memory.wf] using h
      · simpa [Memory.wf] using risingFrom_put v (by omega) h

/-- A property of every listed pair stays true when a pair that has it is put. -/
theorem all_put (p : Nat × Word → Bool) {l : List (Nat × Word)} {a : Nat} {v : Word} (hp : p (a, v) = true)
    (h : l.all p = true) : (cellsPut l a v).all p = true := by
  induction l with
  | nil => simpa [cellsPut] using hp
  | cons c r ih =>
    obtain ⟨d, w⟩ := c
    simp only [List.all_cons, Bool.and_eq_true] at h
    simp only [cellsPut]
    split
    · simp [hp, h.1, h.2]
    · split
      · simp [hp, h.2]
      · simp [h.1, ih h.2]

/-- What a lookup finds is listed. -/
theorem all_get (p : Nat × Word → Bool) {l : List (Nat × Word)} {a : Nat} {v : Word} (h : l.all p = true)
    (hg : cellsGet l a = some v) : p (a, v) = true := by
  induction l with
  | nil => simp [cellsGet] at hg
  | cons c r ih =>
    obtain ⟨d, w⟩ := c
    simp only [List.all_cons, Bool.and_eq_true] at h
    simp only [cellsGet] at hg
    split at hg
    · rename_i h1
      subst h1
      cases hg
      exact h.1
    · exact ih h.2 hg

/-! The backends. -/

@[simp] theorem grow_cells (m : Memory) (a : Nat) : (m.grow a).cells = m.cells := by
  unfold Memory.grow; split <;> rfl

theorem grow_len (m : Memory) (a : Nat) : (m.grow a).len = max m.len (a + 1) := by
  unfold Memory.grow; split <;> simp <;> omega

/-- A read changes no slot (R55). -/
@[simp] theorem backendRead_cells (b : Backend) (cap : Nat) (m : Memory) (a : Nat) :
    (backendRead b cap m a).2.cells = m.cells := by
  cases b <;> simp only [backendRead]
  · simp
  · split
    · rfl
    · split <;> rfl

/-- A write sets one slot under both backends (R48). -/
@[simp] theorem backendWrite_cells (b : Backend) (m : Memory) (a : Nat) (v : Word) :
    (backendWrite b m a v).cells = cellsPut m.cells a v := by
  cases b <;> rfl

/-- Reset leaves no slot set (R41, R42). -/
@[simp] theorem backendReset_cells (b : Backend) (cap : Nat) (m : Memory) :
    (backendReset b cap m).cells = [] := by
  cases b <;> rfl

/-- The dense length after a read (R41); the sparse backend leaves it. -/
theorem backendRead_len (b : Backend) (cap : Nat) (m : Memory) (a : Nat) :
    (backendRead b cap m a).2.len = match b with
      | .dense => max m.len (a + 1)
      | .sparse => m.len := by
  cases b <;> simp only [backendRead]
  · exact grow_len m a
  · split
    · rfl
    · split <;> rfl

theorem backendWrite_len (b : Backend) (m : Memory) (a : Nat) (v : Word) :
    (backendWrite b m a v).len = match b with
      | .dense => max m.len (a + 1)
      | .sparse => m.len := by
  cases b
  · exact grow_len m a
  · rfl

theorem wf_of_cells {m n : Memory} (h : m.cells = n.cells) : m.wf = n.wf := by
  obtain ⟨_, _⟩ := m; obtain ⟨_, _⟩ := n; cases h; rfl

/-- The canonical form is kept by every operation of the backends (20_memory.md R40). -/
theorem backendRead_wf (b : Backend) (cap : Nat) {m : Memory} (a : Nat) (h : m.wf = true) :
    (backendRead b cap m a).2.wf = true := by
  rw [wf_of_cells (backendRead_cells b cap m a)]; exact h

theorem backendWrite_wf (b : Backend) {m : Memory} (a : Nat) (v : Word) (h : m.wf = true) :
    (backendWrite b m a v).wf = true := by
  rw [wf_of_cells (n := { cells := cellsPut m.cells a v, len := 0 }) (backendWrite_cells b m a v)]
  exact wf_put a v 0 h

theorem backendReset_wf (b : Backend) (cap : Nat) (m : Memory) : (backendReset b cap m).wf = true := by
  rw [wf_of_cells (n := { cells := [], len := 0 }) (backendReset_cells b cap m)]; rfl

/-- `State.reset`'s overlay has the canonical form. -/
theorem reset_overlay_wf : State.reset.overlay.wf = true := rfl

/-! The combined address space. -/

/-- The combined read, the same formula for both backends (R47, R49). -/
theorem wordAt_eq (s : State) (a : Nat) :
    s.wordAt a = (cellsGet s.overlay.cells a).getD (s.image.getD a 0) := by
  have himg : (if a < s.image.length then s.image.getD a zero else zero) = s.image.getD a 0 := by
    split
    · rfl
    · rename_i h
      simp [List.getD, List.getElem?_eq_none (Nat.le_of_not_lt h), zero]
  unfold State.wordAt backendRead
  cases hb : s.cfg.backend <;> simp only
  · cases hg : cellsGet s.overlay.cells a <;> simp only [himg, Option.getD]
  · cases hg : cellsGet s.overlay.cells a
    · simp only
      by_cases hc : s.image.length ≤ a
      · simp only [hc, if_true]
        simp [List.getD, List.getElem?_eq_none hc, zero]
      · simp only [hc, if_false, himg, Option.getD]
    · simp

/-- The combined read depends on the set slots and the image alone. -/
theorem wordAt_congr {s t : State} (hc : s.overlay.cells = t.overlay.cells) (hi : s.image = t.image)
    (a : Nat) : s.wordAt a = t.wordAt a := by
  rw [wordAt_eq, wordAt_eq, hc, hi]

/-- The overlay after the address `a` was read (R41). -/
def State.touch (s : State) (a : Nat) : State :=
  s.setOverlay (backendRead s.cfg.backend s.image.length s.overlay a).2

@[simp] theorem touch_cells (s : State) (a : Nat) : (s.touch a).overlay.cells = s.overlay.cells := by
  simp [State.touch]

/-- A read has no effect on any value (R55). -/
@[simp] theorem touch_wordAt (s : State) (a b : Nat) : (s.touch a).wordAt b = s.wordAt b :=
  wordAt_congr (s := s.touch a) (t := s) (by simp) rfl b

/-- `MemRead` at a legal address (R47). -/
theorem memRead_ok {a : Nat} {s : State} (h : a < s.cfg.memLimit) :
    memRead a s = .ok (s.wordAt a) (s.touch a) := by simp [memRead, h, State.touch]

/-- `MemRead` at an address that is none (R44). -/
theorem memRead_raise {a : Nat} {s : State} (h : s.cfg.memLimit ≤ a) :
    memRead a s = .raise { cause := .badAddress, info := a } s := by simp [memRead, Nat.not_lt.mpr h]

/-- The state after the Word `v` was written at `a` (R48). -/
def State.stored (s : State) (a : Nat) (v : Word) : State :=
  s.setOverlay (backendWrite s.cfg.backend s.overlay a v)

/-- `MemWrite` at a legal address (R48). -/
theorem memWrite_ok {a : Nat} {v : Word} {s : State} (h : a < s.cfg.memLimit) :
    memWrite a v s = .ok () (s.stored a v) := by simp [memWrite, h, State.stored]

/-- `MemWrite` at an address that is none (R44). -/
theorem memWrite_raise {a : Nat} {v : Word} {s : State} (h : s.cfg.memLimit ≤ a) :
    memWrite a v s = .raise { cause := .badAddress, info := a } s := by
  simp [memWrite, Nat.not_lt.mpr h]

/-- A write is read back at its address and nowhere else (R49). -/
theorem stored_wordAt (s : State) (a : Nat) (v : Word) (b : Nat) :
    (s.stored a v).wordAt b = if b = a then v else s.wordAt b := by
  rw [wordAt_eq, wordAt_eq]
  by_cases h : b = a
  · subst h; simp [State.stored, cellsGet_put_same]
  · simp [State.stored, cellsGet_put_other _ v h, h]

end Sys2Proof.Machine
end

