-- ==== Sys2Proof/Laws/Operands.lean ====
section
/-! SUPPORT. What reading and writing an operand does (20_memory.md R45, R46), said once. -/

namespace Sys2Proof.Machine

@[simp] theorem bind_ok {α β : Type} (v : α) (s : State) (f : α → State → Res β) :
    (Res.ok v s).bind f = f v s := rfl

@[simp] theorem bind_raise {α β : Type} (t : Trap) (s : State) (f : α → State → Res β) :
    (Res.raise t s : Res α).bind f = .raise t s := rfl

@[simp] theorem liftTrap_ok {α : Type} (v : α) (s : State) : liftTrap (.ok v) s = .ok v s := rfl

@[simp] theorem liftTrap_error {α : Type} (t : Trap) (s : State) :
    liftTrap (.error t : Except Trap α) s = .raise t s := rfl

@[simp] theorem conclude_ok (i : Instr) (s t : State) : conclude i s (.ok () t) = .next t := rfl

@[simp] theorem conclude_raise (i : Instr) (s t : State) (trap : Trap) :
    conclude i s (.raise trap t) = .next (takeFault (some (s.pc - i.length)) trap t) := rfl

/-- A sum in the address of an operand is the only thing a translation computes; it depends on the
configuration and `rb` alone. -/
theorem ea_congr {s t : State} (hc : s.cfg = t.cfg) (hr : s.rb = t.rb) (o : Operand) : ea s o = ea t o := by
  cases o <;> simp [ea, eaPositional, eaRelative, hc, hr]

theorem eaRelative_legal {s : State} {w : Word} {a : Nat} (h : eaRelative s w = .ok a) :
    a < s.cfg.memLimit := by
  unfold eaRelative at h
  split at h
  · exact addrOf_legal h
  · cases h

/-- An effective address is legal (R44, R45). -/
theorem ea_legal {s : State} {o : Operand} {a : Nat} (h : ea s o = .ok (some a)) : a < s.cfg.memLimit := by
  cases o with
  | immediate w => simp [ea] at h
  | positional w =>
    simp only [ea] at h
    cases he : eaPositional s w with
    | error t => simp [he, Except.map] at h
    | ok b => simp [he, Except.map] at h; subst h; exact addrOf_legal he
  | relative w =>
    simp only [ea] at h
    cases he : eaRelative s w with
    | error t => simp [he, Except.map] at h
    | ok b => simp [he, Except.map] at h; subst h; exact eaRelative_legal he

/-- The state after an operand was read: the dense backend has grown to its cell (R41, R46). -/
def State.touchOp (s : State) (o : Operand) : State :=
  match ea s o with
  | .ok (some a) => s.touch a
  | _ => s

/-- `ReadOp`: the operand's value, or its trap with nothing changed (R46). -/
theorem readOp_eq (o : Operand) (s : State) :
    readOp o s = match operandVal s o with
      | .ok v => .ok v (s.touchOp o)
      | .error t => .raise t s := by
  cases o with
  | immediate w => simp [readOp, operandVal, State.touchOp, ea]
  | positional w =>
    simp only [readOp, operandVal, State.touchOp, ea]
    cases he : eaPositional s w with
    | error t => simp [Except.map]
    | ok b => simp [Except.map, memRead_ok (addrOf_legal he)]
  | relative w =>
    simp only [readOp, operandVal, State.touchOp, ea]
    cases he : eaRelative s w with
    | error t => simp [Except.map]
    | ok b => simp [Except.map, memRead_ok (eaRelative_legal he)]

/-- Reading an operand changes the dense length alone (R55). -/
theorem touchOp_frame (s : State) (o : Operand) :
    s.touchOp o = s.setOverlay (s.touchOp o).overlay ∧ (s.touchOp o).overlay.cells = s.overlay.cells := by
  unfold State.touchOp
  split
  · exact ⟨rfl, touch_cells _ _⟩
  · exact ⟨rfl, rfl⟩

/-- The value of an operand is the same in every state that agrees on the configuration, `rb`, the image and
the set slots. -/
theorem operandVal_congr {s t : State} (hc : s.cfg = t.cfg) (hr : s.rb = t.rb) (hi : s.image = t.image)
    (ho : s.overlay.cells = t.overlay.cells) (o : Operand) : operandVal s o = operandVal t o := by
  have hw : s.wordAt = t.wordAt := funext (wordAt_congr ho hi)
  cases o <;> simp [operandVal, eaPositional, eaRelative, hc, hr, hw]

/-- `WriteOp`: the Word lands at the effective address, an `Immediate` destination discards it, and a trap
changes nothing (R46, R76). -/
theorem writeOp_eq (o : Operand) (v : Word) (s : State) :
    writeOp o v s = match ea s o with
      | .ok (some a) => .ok () (s.stored a v)
      | .ok none => .ok () s
      | .error t => .raise t s := by
  cases o with
  | immediate w => simp [writeOp, ea]
  | positional w =>
    simp only [writeOp, ea]
    cases he : eaPositional s w with
    | error t => simp [Except.map]
    | ok b => simp [Except.map, memWrite_ok (addrOf_legal he)]
  | relative w =>
    simp only [writeOp, ea]
    cases he : eaRelative s w with
    | error t => simp [Except.map]
    | ok b => simp [Except.map, memWrite_ok (eaRelative_legal he)]

/-- The state after two operands were read. -/
theorem touchTwo_frame (s : State) (a b : Operand) :
    (s.touchOp a).touchOp b = s.setOverlay ((s.touchOp a).touchOp b).overlay ∧
    ((s.touchOp a).touchOp b).overlay.cells = s.overlay.cells := by
  obtain ⟨h1, h2⟩ := touchOp_frame s a
  obtain ⟨h3, h4⟩ := touchOp_frame (s.touchOp a) b
  exact ⟨by rw [h3, h1]; rfl, h4.trans h2⟩

/-- The second operand reads as it would have before the first was read (R55). -/
theorem operandVal_touchOp (s : State) (a o : Operand) : operandVal (s.touchOp a) o = operandVal s o := by
  obtain ⟨h1, h2⟩ := touchOp_frame s a
  exact operandVal_congr (by rw [h1]; rfl) (by rw [h1]; rfl) (by rw [h1]; rfl) h2 o

/-- Everything the shape of two sources and a destination can do: the traps in the order of its operands, the
discarded write, and the write (R100, R101, R130, R131; D30). -/
theorem twoSources_eq (f : Config → Int → Int → Except Trap Word) (a b c : Operand) (s : State) :
    twoSources f a b c s = match operandVal s a with
      | .error t => .raise t s
      | .ok x => match operandVal s b with
        | .error t => .raise t (s.touchOp a)
        | .ok y => match f s.cfg x y with
          | .error t => .raise t ((s.touchOp a).touchOp b)
          | .ok r => match ea s c with
            | .error t => .raise t ((s.touchOp a).touchOp b)
            | .ok none => .ok () ((s.touchOp a).touchOp b)
            | .ok (some d) => .ok () (((s.touchOp a).touchOp b).stored d r) := by
  obtain ⟨h1, -⟩ := touchTwo_frame s a b
  have hcfg : ((s.touchOp a).touchOp b).cfg = s.cfg := by rw [h1]; rfl
  have hea : ea ((s.touchOp a).touchOp b) c = ea s c := ea_congr hcfg (by rw [h1]; rfl) c
  simp only [twoSources, readOp_eq]
  cases operandVal s a with
  | error t => rfl
  | ok x =>
    simp only [bind_ok, operandVal_touchOp]
    cases operandVal s b with
    | error t => rfl
    | ok y =>
      simp only [bind_ok, hcfg]
      cases f s.cfg x y with
      | error t => rfl
      | ok r =>
        simp only [liftTrap_ok, bind_ok, writeOp_eq, hea]
        cases ea s c with
        | error t => rfl
        | ok d => cases d <;> rfl

end Sys2Proof.Machine
end

