-- ==== Sys2Proof/Laws/Fetch.lean ====
section
/-! SUPPORT. What the decode step does (30_encoding.md R84), said once. -/

namespace Sys2Proof.Machine

/-- One Word read at a legal `pc` (R84). -/
theorem fetchWord_ok {s : State} (h : s.pc < s.cfg.memLimit) :
    fetchWord s = .ok (s.wordAt s.pc) ((s.touch s.pc).setPc (s.pc + 1)) := by
  simp [fetchWord, memRead_ok h, State.touch]

/-- A fetch at or above `MEM_LIMIT` (R22, R44). -/
theorem fetchWord_raise {s : State} (h : s.cfg.memLimit ≤ s.pc) :
    fetchWord s = .raise { cause := .badAddress, info := s.pc } s := by simp [fetchWord, memRead_raise h]

/-- The state after `k` Words were read from `pc` on: `pc` advanced by `k`, the dense length grown (R41, R84). -/
def State.fetched (s : State) (k : Nat) : State :=
  if k = 0 then s
  else (s.setOverlay { s.overlay with len := s.lenAfterReads s.pc k }).setPc (s.pc + k)

theorem touch_eq (s : State) (a : Nat) :
    s.touch a = s.setOverlay { s.overlay with len := s.lenAfterReads a 1 } := by
  have h1 := touch_cells s a
  have h2 : (s.touch a).overlay.len = s.lenAfterReads a 1 :=
    backendRead_len s.cfg.backend s.image.length s.overlay a
  have h3 : ∀ (m : Memory) (n : Nat), m.cells = s.overlay.cells → m.len = n →
      m = ⟨s.overlay.cells, n⟩ := by
    rintro ⟨_, _⟩ n rfl rfl
    rfl
  calc s.touch a = s.setOverlay (s.touch a).overlay := rfl
    _ = _ := by rw [h3 _ _ h1 h2]

@[simp] theorem fetched_zero (s : State) : s.fetched 0 = s := rfl

/-- Reading one more Word. -/
theorem fetchWord_fetched {s : State} {k : Nat} (h : s.pc + k < s.cfg.memLimit) :
    fetchWord (s.fetched k) = .ok (s.wordAt (s.pc + k)) (s.fetched (k + 1)) := by
  by_cases hk : k = 0
  · subst hk
    simp only [fetched_zero, Nat.add_zero] at h ⊢
    rw [fetchWord_ok h, touch_eq]
    simp [State.fetched]
  · have hw : (s.fetched k).wordAt = s.wordAt := by
      funext a
      apply wordAt_congr <;> simp [State.fetched, hk]
    have hpc : (s.fetched k).pc = s.pc + k := by simp [State.fetched, hk]
    have hlim : (s.fetched k).pc < (s.fetched k).cfg.memLimit := by simpa [State.fetched, hk] using h
    rw [fetchWord_ok hlim, touch_eq, hw, hpc]
    simp only [State.fetched, hk, if_false, Nat.succ_ne_zero, State.setPc, State.setOverlay,
      State.lenAfterReads, Nat.add_assoc]
    cases s.cfg.backend <;> simp [Nat.max_assoc]

theorem fetchWord_fetched_raise {s : State} {k : Nat} (h : s.cfg.memLimit ≤ s.pc + k) :
    fetchWord (s.fetched k) =
      .raise { cause := .badAddress, info := ((s.pc + k : Nat) : Int) } (s.fetched k) := by
  by_cases hk : k = 0
  · subst hk
    simpa using fetchWord_raise (s := s) (by simpa using h)
  · have hpc : (s.fetched k).pc = s.pc + k := by simp [State.fetched, hk]
    have hlim : (s.fetched k).cfg.memLimit ≤ (s.fetched k).pc := by simpa [State.fetched, hk] using h
    rw [fetchWord_raise hlim, hpc]

/-- Fetching changes no Word that any address reads as. -/
theorem fetched_wordAt (s : State) (k a : Nat) : (s.fetched k).wordAt a = s.wordAt a := by
  by_cases hk : k = 0
  · subst hk; rfl
  · apply wordAt_congr <;> simp [State.fetched, hk]

/-- The first Word of a decode, and what its head decides. -/
theorem decodeStep_eq {s : State} (h : s.pc < s.cfg.memLimit) :
    decodeStep s = match decodeHead (s.wordAt s.pc) with
      | .error e => .raise (trapOfHead e) (s.fetched 1)
      | .ok hd => (fetchParams hd (s.fetched 1)).bind fun i t => .ok i (decodeFlags i t) := by
  have h0 : fetchWord s = .ok (s.wordAt s.pc) (s.fetched 1) := by
    simpa using fetchWord_fetched (s := s) (k := 0) (by simpa using h)
  simp only [decodeStep, h0, bind_ok]
  cases decodeHead (s.wordAt s.pc) <;> rfl

end Sys2Proof.Machine
end

