-- ==== Sys2Proof/Laws/Step.lean ====
section
/-! SUPPORT. Everything a tick, the end of a pass and a step can do (60_exceptions.md R160, R163), said once. -/

namespace Sys2Proof.Machine

/-- A tick with a flag pending (R160). -/
theorem tick_pending {s : State} {i : Instr} (hp : s.pending = true) (hc : s.cur = some i) :
    tick s = exec i s := by simp [tick, hp, hc]

/-- A tick that decodes (R160). -/
theorem tick_decode {s t : State} {i : Instr} (hp : s.pending = false) (hd : decodeStep s = .ok i t) :
    tick s = exec i (t.setCur (some i)) := by simp [tick, hp, hd]

/-- A tick whose decode faults (R152, R160). -/
theorem tick_raise {s t : State} {trap : Trap} (hp : s.pending = false) (hd : decodeStep s = .raise trap t) :
    tick s = .next (takeFault (some s.pc) trap t) := by simp [tick, hp, hd]

/-- A step of a machine that has not faulted is a tick and the tests of `run()` (R163). -/
theorem step_eq {s : State} (h : s.fault = none) : step s = afterTick (tick s) := by
  simp only [step, stepHealthy, h, runPass]
  cases tick s <;> rfl

/-- A machine in the fault state has no step (R150). -/
theorem step_faulted {s : State} {r : FaultRecord} (h : s.fault = some r) : step s = .fault (.aborted r) := by
  simp [step, stepHealthy, h]

/-- A step that answers a next state: the machine had not faulted, and the next state is the tick's with what
`run()` made of it. -/
theorem step_next_inv {s t : State} (h : step s = .next t) :
    s.fault = none ∧ ∃ u, tick s = .next u ∧ endPass u = .next t := by
  cases hf : s.fault with
  | some r => rw [step_faulted hf] at h; cases h
  | none =>
    rw [step_eq hf] at h
    cases hk : tick s with
    | next u => rw [hk] at h; exact ⟨rfl, u, rfl, h⟩
    | fault f => rw [hk] at h; cases h
    | refused r => rw [hk] at h; cases h

/-- Everything the end of a pass can do (R150, R163, R165): a faulted tick returns nothing; then `Halt`, `Input`,
the hand-over of an output, or the loop goes on. -/
theorem endPass_cases {u t : State} (h : endPass u = .next t) :
    (u.fault ≠ none ∧ t = u.setRet none) ∨
    (u.fault = none ∧ u.fHalted = true ∧ t = u.setRet (some .halt)) ∨
    (u.fault = none ∧ u.fHalted = false ∧ u.fAwaitIn = true ∧ t = u.setRet (some .input)) ∨
    (∃ v, u.fault = none ∧ u.fHalted = false ∧ u.fAwaitIn = false ∧ u.fHasOut = true ∧ u.outReg = some v ∧
      t = ((u.setOutReg none).setHasOut false).setRet (some (.output v))) ∨
    (u.fault = none ∧ u.fHalted = false ∧ u.fAwaitIn = false ∧ u.fHasOut = false ∧ t = u.setRet none) := by
  unfold endPass at h
  cases hf : u.fault with
  | some r =>
    rw [hf] at h
    cases h
    exact .inl ⟨by simp, rfl⟩
  | none =>
    rw [hf] at h
    simp only [suspend] at h
    cases h1 : u.fHalted
    · cases h2 : u.fAwaitIn
      · cases h3 : u.fHasOut
        · simp only [h1, h2, h3, Bool.false_eq_true, if_false] at h
          cases h
          exact .inr (.inr (.inr (.inr ⟨rfl, rfl, rfl, rfl, rfl⟩)))
        · cases h4 : u.outReg with
          | none => simp [h1, h2, h3, h4] at h
          | some v =>
            simp only [h1, h2, h3, h4, Bool.false_eq_true, if_false, if_true] at h
            cases h
            exact .inr (.inr (.inr (.inl ⟨v, rfl, rfl, rfl, rfl, rfl, rfl⟩)))
      · simp only [h1, h2, Bool.false_eq_true, if_false, if_true] at h
        cases h
        exact .inr (.inr (.inl ⟨rfl, rfl, rfl, rfl⟩))
    · simp only [h1, if_true] at h
      cases h
      exact .inr (.inl ⟨rfl, rfl, rfl⟩)

/-- The end of a pass touches `fHasOut`, `outReg` and what `run()` returns, nothing else (R163). -/
theorem endPass_frame {u t : State} (h : endPass u = .next t) :
    t.cfg = u.cfg ∧ t.image = u.image ∧ t.overlay = u.overlay ∧ t.pc = u.pc ∧ t.rb = u.rb ∧
    t.fAwaitIn = u.fAwaitIn ∧ t.fHalted = u.fHalted ∧ t.inReg = u.inReg ∧ t.cur = u.cur ∧
    t.fault = u.fault := by
  rcases endPass_cases h with ⟨-, rfl⟩ | ⟨-, -, rfl⟩ | ⟨-, -, -, rfl⟩ | ⟨v, -, -, -, -, -, rfl⟩ |
    ⟨-, -, -, -, rfl⟩ <;> simp

/-- What an induction over the states a host brings a machine to needs (R181): it holds of the machine, and
every step and every host operation with Words of its width keeps it. -/
theorem reach_induction {m : State} {P : State → Prop} (h0 : P m)
    (hstep : ∀ s t, P s → step s = .next t → P t)
    (hop : ∀ s n o, P s → o.wf s.cfg.width = true → P (hostOp n o s).2) {s : State} (h : Reach m s) : P s := by
  induction h with
  | start => exact h0
  | step _ he ih => exact hstep _ _ ih he
  | op _ n o hw ih => exact hop _ n o ih hw

/-- What holds along every `run()`: kept by each step, it is kept by `runFor` (R163). -/
theorem runFor_induction {P : State → Prop} (hstep : ∀ s t, P s → step s = .next t → P t) (n : Nat)
    {s : State} (h : P s) : P (runFor n s).2 := by
  induction n generalizing s with
  | zero => exact h
  | succ n ih =>
    simp only [runFor]
    split
    · rename_i t ht
      have hp := hstep s t h ht
      split
      · exact hp
      · exact hp
      · exact ih hp
    · exact h
    · exact h

end Sys2Proof.Machine
end

