-- ==== Sys2Proof/Laws/Host.lean ====
section
/-! SUPPORT. The host operations (60_exceptions.md R150, R169, R181): which of them act, said once. -/

namespace Sys2Proof.Machine

/-- A `run()` is executing exactly in a healthy machine that has decoded and returned nothing (R169). -/
theorem inRun_iff {s : State} : s.inRun = true ↔ s.cur.isSome = true ∧ s.ret = none ∧ s.fault = none := by
  simp [State.inRun, and_assoc]

/-- Whether a `run()` is executing is read off `cur`, `ret` and `fault` alone. -/
theorem inRun_congr {s t : State} (hc : t.cur = s.cur) (hr : t.ret = s.ret) (hf : t.fault = s.fault) :
    t.inRun = s.inRun := by
  simp [State.inRun, hc, hr, hf]

/-- No `run()` is executing in a machine that has decoded nothing: after construction and after `reset()`. -/
theorem inRun_of_cur_none {s : State} (h : s.cur = none) : s.inRun = false := by simp [State.inRun, h]

/-- A `run()` that has returned is no longer executing (R173). -/
theorem inRun_of_ret_some {s : State} {i : Interrupt} (h : s.ret = some i) : s.inRun = false := by
  simp [State.inRun, h]

theorem betweenRuns_idle {s : State} (h : s.inRun = false) (r : HostReply × State) : betweenRuns s r = r := by
  simp [betweenRuns, h]

theorem betweenRuns_busy {s : State} (h : s.inRun = true) (r : HostReply × State) :
    betweenRuns s r = (.running, s) := by
  simp [betweenRuns, h]

/-- Whatever is kept by an operation is kept when the operation waits for `run()` (R169). -/
theorem betweenRuns_induction {P : State → Prop} {s : State} {r : HostReply × State} (hs : P s) (hr : P r.2) :
    P (betweenRuns s r).2 := by
  unfold betweenRuns
  split
  · exact hs
  · exact hr

theorem hostOp_faulted {s : State} {r : FaultRecord} (h : s.fault = some r) (n : Nat) (op : HostOp) :
    hostOp n op s = (.noResult, s) := by
  simp [hostOp, h]

theorem hostOp_healthy {s : State} (h : s.fault = none) (n : Nat) (op : HostOp) :
    hostOp n op s = hostOpHealthy n op s := by
  simp [hostOp, h]

/-- Followed on after it ended, a `run()` is as it was: what `runFor` gives does not depend on its count. -/
theorem runFor_more {n : Nat} {s : State} (h : (runFor n s).1 ≠ .running) (k : Nat) :
    runFor (n + k) s = runFor n s := by
  induction n generalizing s with
  | zero => exact absurd rfl h
  | succ n ih =>
    rw [Nat.succ_add]
    simp only [runFor] at h ⊢
    cases hs : step s with
    | next t =>
      simp only [hs] at h
      cases hf : t.fault with
      | some r => simp only [hf]
      | none =>
        cases hr : t.ret with
        | some i => simp only [hf, hr]
        | none =>
          simp only [hf, hr] at h ⊢
          exact ih h
    | fault f => rfl
    | refused r => rfl

/-- A host operation that completes has one reply and one state, however long the model followed it. -/
theorem hostOp_complete_unique {s : State} {op : HostOp} {n m : Nat} (hn : (hostOp n op s).1 ≠ .running)
    (hm : (hostOp m op s).1 ≠ .running) : hostOp n op s = hostOp m op s := by
  cases hf : s.fault with
  | some r => rw [hostOp_faulted hf, hostOp_faulted hf]
  | none =>
    rw [hostOp_healthy hf] at hn hm
    rw [hostOp_healthy hf, hostOp_healthy hf]
    cases op with
    | run =>
      have h1 := runFor_more hn (m + 1)
      have h2 := runFor_more hm (n + 1)
      rw [Nat.add_comm (m + 1)] at h2
      exact h1.symm.trans h2
    | reset => rfl
    | setInput v => rfl
    | peek a => rfl
    | poke a v => rfl

/-- The calls of a host on one state determine the replies and the state they lead to (R182). -/
theorem session_unique {s t t' : State} {ops : List HostOp} {rs rs' : List HostReply} (h : Session s ops rs t)
    (h' : Session s ops rs' t') : rs = rs' ∧ t = t' := by
  induction h generalizing rs' with
  | nil s =>
    cases h'
    exact ⟨rfl, rfl⟩
  | cons n h hr _ ih =>
    obtain _ | ⟨n', h2, hr2, hs2⟩ := h'
    have he := hostOp_complete_unique (n := n) (m := n') (by rw [h]; exact hr) (by rw [h2]; exact hr2)
    rw [h, h2] at he
    cases he
    obtain ⟨rfl, rfl⟩ := ih hs2
    exact ⟨rfl, rfl⟩

end Sys2Proof.Machine
end

