-- ==== Sys2Proof/Laws/PerInstr.lean ====
section
/-! SUPPORT. The families of facts proved once per instruction. -/

/-- An instruction is well formed exactly when each of its operands is, and its encoding has one Word for the
opcode and one for each operand, below 100000 (30_encoding.md R65, R68, R77). -/
def Sys2Proof.Laws.Shape.Statement (i : Sys2Proof.Instr) : Prop :=
  (∀ w, i.wf w = i.operands.all (Sys2Proof.Operand.wf w)) ∧
  i.length = i.operands.length + 1 ∧
  ∃ n : Nat, n < 100000 ∧ Sys2Proof.encode i = (n : Int) :: i.operands.map Sys2Proof.Operand.raw

namespace Sys2Proof.Laws.Shape

/-- The instruction word of up to three operands is below 100000. -/
theorem word_lt (op : Nat) (os : List Operand) (ho : op < 100) (hl : os.length ≤ 3) :
    op + modeDigits 100 os < 100000 := by
  match os, hl with
  | [], _ => simp only [modeDigits]; omega
  | [a], _ => have := mode_digit_le a.mode; simp only [modeDigits]; omega
  | [a, b], _ =>
    have := mode_digit_le a.mode; have := mode_digit_le b.mode; simp only [modeDigits]; omega
  | [a, b, c], _ =>
    have := mode_digit_le a.mode; have := mode_digit_le b.mode; have := mode_digit_le c.mode
    simp only [modeDigits]; omega

/-- The three parts of the statement from what differs between the instructions. -/
theorem of_parts (i : Instr) (hw : ∀ w, i.wf w = i.operands.all (Operand.wf w))
    (hl : i.length = i.operands.length + 1) (h3 : i.operands.length ≤ 3) (ho : i.opcode < 100) :
    Statement i :=
  ⟨hw, hl, _, word_lt _ _ ho h3, rfl⟩

theorem add (a b c : Operand) : Statement (.add a b c) :=
  of_parts _ (by intro w; simp [Instr.wf, Instr.operands, Bool.and_assoc]) rfl (by simp [Instr.operands])
    (by simp [Instr.opcode])

theorem mul (a b c : Operand) : Statement (.mul a b c) :=
  of_parts _ (by intro w; simp [Instr.wf, Instr.operands, Bool.and_assoc]) rfl (by simp [Instr.operands])
    (by simp [Instr.opcode])

theorem inp (a : Operand) : Statement (.inp a) :=
  of_parts _ (by intro w; simp [Instr.wf, Instr.operands]) rfl (by simp [Instr.operands])
    (by simp [Instr.opcode])

theorem out (a : Operand) : Statement (.out a) :=
  of_parts _ (by intro w; simp [Instr.wf, Instr.operands]) rfl (by simp [Instr.operands])
    (by simp [Instr.opcode])

theorem jumpIfTrue (a b : Operand) : Statement (.jumpIfTrue a b) :=
  of_parts _ (by intro w; simp [Instr.wf, Instr.operands]) rfl (by simp [Instr.operands])
    (by simp [Instr.opcode])

theorem jumpIfFalse (a b : Operand) : Statement (.jumpIfFalse a b) :=
  of_parts _ (by intro w; simp [Instr.wf, Instr.operands]) rfl (by simp [Instr.operands])
    (by simp [Instr.opcode])

theorem lessThan (a b c : Operand) : Statement (.lessThan a b c) :=
  of_parts _ (by intro w; simp [Instr.wf, Instr.operands, Bool.and_assoc]) rfl (by simp [Instr.operands])
    (by simp [Instr.opcode])

theorem equal (a b c : Operand) : Statement (.equal a b c) :=
  of_parts _ (by intro w; simp [Instr.wf, Instr.operands, Bool.and_assoc]) rfl (by simp [Instr.operands])
    (by simp [Instr.opcode])

theorem adjustRelativeBase (a : Operand) : Statement (.adjustRelativeBase a) :=
  of_parts _ (by intro w; simp [Instr.wf, Instr.operands]) rfl (by simp [Instr.operands])
    (by simp [Instr.opcode])

theorem halt : Statement .halt :=
  of_parts _ (by intro w; simp [Instr.wf, Instr.operands]) rfl (by simp [Instr.operands])
    (by simp [Instr.opcode])

end Sys2Proof.Laws.Shape
end

