-- ==== Sys2Proof/Tests/Slice0.lean ====
section
/-! SUPPORT. Tests: ill-formed terms refused, words written from 30_encoding.md decoded, one step per test with the
results of 95_test_vectors.md, and a state that meets the hypotheses of every obligation (`witness_…`). -/

namespace Sys2Proof.Tests

open Sys2Proof.Machine

/-- The parameters of the small machines of this file: 16-bit Words, `MEM_LIMIT = 50`. -/
def cfg16 (o : Overflow) (b : Backend) : Config :=
  { width := .w16, backend := b, overflow := o, memLimit := 50, trace := false }

/-- A small machine at construction, `OVERFLOW = Fault`, sparse. -/
def small (image : List Word) : State := State.initial (cfg16 .fault .sparse) image

/-- A small machine at construction, `OVERFLOW = Wrap`, dense. -/
def smallWrap (image : List Word) : State := State.initial (cfg16 .wrap .dense) image

/-- What a next state shows through `f`. -/
def view {α : Type} (f : State → α) : Answer → Option α
  | .next t => some (f t)
  | .fault _ => none
  | .refused _ => none

/-- The fault record of a next state as cause, instruction address and value. -/
def faultOf (t : State) : Option (Cause × Option Nat × Int) := t.fault.map fun r => (r.cause, r.loc, r.info)

/-! ## Well-formedness (R7, R77): an ill-formed term per operand position and per constructor is refused -/

theorem test_wf_range_ends : (Operand.wf .w16 (.immediate 32767) && Operand.wf .w16 (.positional (-32768))) = true := by
  decide
theorem test_wf_refuses_immediate : Operand.wf .w16 (.immediate 32768) = false := by decide
theorem test_wf_refuses_positional : Operand.wf .w16 (.positional (-32769)) = false := by decide
theorem test_wf_refuses_relative : Operand.wf .w32 (.relative 2147483648) = false := by decide
theorem test_wf_refuses_add :
    [Instr.add (.immediate 32768) (.immediate 0) (.immediate 0), .add (.immediate 0) (.immediate 32768) (.immediate 0),
     .add (.immediate 0) (.immediate 0) (.immediate 32768)].any (Instr.wf .w16) = false := by decide
theorem test_wf_refuses_mul :
    [Instr.mul (.immediate 32768) (.immediate 0) (.immediate 0), .mul (.immediate 0) (.immediate 32768) (.immediate 0),
     .mul (.immediate 0) (.immediate 0) (.immediate 32768)].any (Instr.wf .w16) = false := by decide
theorem test_wf_refuses_lessThan :
    [Instr.lessThan (.immediate 32768) (.immediate 0) (.immediate 0),
     .lessThan (.immediate 0) (.immediate 32768) (.immediate 0),
     .lessThan (.immediate 0) (.immediate 0) (.immediate 32768)].any (Instr.wf .w16) = false := by decide
theorem test_wf_refuses_equal :
    [Instr.equal (.immediate 32768) (.immediate 0) (.immediate 0),
     .equal (.immediate 0) (.immediate 32768) (.immediate 0),
     .equal (.immediate 0) (.immediate 0) (.immediate 32768)].any (Instr.wf .w16) = false := by decide
theorem test_wf_refuses_jumps :
    [Instr.jumpIfTrue (.immediate 32768) (.immediate 0), .jumpIfTrue (.immediate 0) (.immediate 32768),
     .jumpIfFalse (.immediate 32768) (.immediate 0), .jumpIfFalse (.immediate 0) (.immediate 32768)].any
      (Instr.wf .w16) = false := by decide
theorem test_wf_refuses_one_operand :
    [Instr.inp (.relative 32768), .out (.relative 32768), .adjustRelativeBase (.relative 32768)].any
      (Instr.wf .w16) = false := by decide
theorem test_cfg_wf_refuses_no_memory : Config.wf { cfg16 .fault .sparse with memLimit := 0 } = false := by decide

/-! ## Decoding: words written from R66, R69 and R71 as `C B A O O` -/

theorem test_decode_add : decode [21001, 5, -6, 7] = .ok (.add (.positional 5) (.immediate (-6)) (.relative 7), []) := rfl
theorem test_decode_mul : decode [102, 5, 6, 7] = .ok (.mul (.immediate 5) (.positional 6) (.positional 7), []) := rfl
theorem test_decode_inp : decode [203, 9] = .ok (.inp (.relative 9), []) := rfl
theorem test_decode_out : decode [104, -9, 99] = .ok (.out (.immediate (-9)), [99]) := rfl
theorem test_decode_jumpIfTrue : decode [2105, 1, 4] = .ok (.jumpIfTrue (.immediate 1) (.relative 4), []) := rfl
theorem test_decode_jumpIfFalse : decode [1206, 1, 4] = .ok (.jumpIfFalse (.relative 1) (.immediate 4), []) := rfl
theorem test_decode_lessThan :
    decode [10207, 1, 2, 3] = .ok (.lessThan (.relative 1) (.positional 2) (.immediate 3), []) := rfl
theorem test_decode_equal :
    decode [12108, 1, 2, 3] = .ok (.equal (.immediate 1) (.relative 2) (.immediate 3), []) := rfl
theorem test_decode_adjustRelativeBase :
    decode [9, 30] = .ok (.adjustRelativeBase (.positional 30), []) := rfl
theorem test_decode_halt : decode [99] = .ok (.halt, []) := rfl
theorem test_decode_rejects_opcodes :
    [decode [0], decode [10, 0, 0, 0], decode [98], decode [-1], decode [100001, 0, 0, 0]] =
      [.error (.head (.badOpcode 0)), .error (.head (.badOpcode 10)), .error (.head (.badOpcode 98)),
       .error (.head (.badOpcode (-1))), .error (.head (.badOpcode 100001))] := rfl
theorem test_decode_rejects_modes :
    [decode [301, 0, 0, 0], decode [199], decode [1103, 0], decode [10005, 0, 0]] =
      [.error (.head (.badMode 301)), .error (.head (.badMode 199)), .error (.head (.badMode 1103)),
       .error (.head (.badMode 10005))] := rfl
theorem test_decode_truncated : decode [1, 0, 0] = .error .truncated := rfl
theorem test_table_word_halt : decodeTableWord 8 99 = some .halt := rfl
theorem test_table_word_negative_operand :
    decodeTableWord 128 (109 + (2 ^ 64 - 7) * 2 ^ 64) = some (.adjustRelativeBase (.immediate (-7))) := rfl

/-! ## One step each: results of 95_test_vectors.md §1 and §2 -/

/-- Vector A1. -/
theorem test_add_positional :
    view (fun t => (t.wordAt 7, t.pc)) (step (small [1, 5, 6, 7, 99, 30, 12, 0])) = some (42, 4) := by decide
/-- Vectors A6 and A7. -/
theorem test_add_overflow :
    view faultOf (step (small [1101, 32767, 1, 5, 99, 0])) = some (some (.arithOverflow, some 0, 32768)) ∧
    view (fun t => t.wordAt 5) (step (smallWrap [1101, 32767, 1, 5, 99, 0])) = some (-32768) := by decide
/-- Vector A8. -/
theorem test_mul_negatives :
    view (fun t => t.wordAt 5) (step (small [1102, -4, -6, 5, 99, 0])) = some 24 := by decide
/-- Vectors A10 and A12. -/
theorem test_mul_overflow :
    view faultOf (step (small [1102, 256, 128, 5, 99, 0])) = some (some (.arithOverflow, some 0, 32768)) ∧
    view (fun t => t.wordAt 5) (step (smallWrap [1102, -32768, -1, 5, 99, 0])) = some (-32768) := by decide
/-- Vector I1. -/
theorem test_in_consumes :
    view (fun t => (t.wordAt 3, t.inReg, t.pc, t.ret)) (step ((small [3, 3, 99, 0]).setInReg (some 8))) =
      some (8, none, 2, none) := by decide
/-- Vector I2. -/
theorem test_in_waits :
    view (fun t => (t.wordAt 3, t.fAwaitIn, t.pc, t.ret)) (step (small [3, 3, 99, 0])) =
      some (0, true, 2, some .input) := by decide
/-- Vector O1. -/
theorem test_out_immediate :
    view (fun t => (t.ret, t.outReg, t.fHasOut, t.pc)) (step (small [104, 42, 99])) =
      some (some (.output 42), none, false, 2) := by decide
/-- Vector O2. -/
theorem test_out_positional :
    view (fun t => t.ret) (step (small [4, 3, 99, -17])) = some (some (.output (-17))) := by decide
/-- Vectors J3 (the jump itself) and J6. -/
theorem test_jumpIfTrue :
    view (fun t => t.pc) (step (small [1105, -1, 7, 104, 1, 99, 0, 104, 2, 99])) = some 7 ∧
    view (fun t => (t.pc, t.fault)) (step (small [1105, 0, -1, 99])) = some (3, none) := by decide
/-- Vector J7. -/
theorem test_jumpIfTrue_negative_target :
    view faultOf (step (small [1105, 1, -1, 99])) = some (some (.badAddress, some 0, -1)) := by decide
/-- Vectors J4 and J5 (the jump itself). -/
theorem test_jumpIfFalse :
    view (fun t => t.pc) (step (small [1106, 0, 7, 104])) = some 7 ∧
    view (fun t => t.pc) (step (small [1106, 5, 7, 104])) = some 3 := by decide
/-- Vectors C1 and C2. -/
theorem test_lessThan_signed :
    view (fun t => t.wordAt 5) (step (small [1107, -5, 3, 5, 99, 9])) = some 1 ∧
    view (fun t => t.wordAt 5) (step (small [1107, 3, 3, 5, 99, 9])) = some 0 := by decide
/-- Vectors C3 and C4. -/
theorem test_equal :
    view (fun t => t.wordAt 5) (step (small [1108, 7, 7, 5, 99, 9])) = some 1 ∧
    view (fun t => t.wordAt 5) (step (small [1108, 7, -7, 5, 99, 9])) = some 0 := by decide
/-- Vector S1. -/
theorem test_adjustRelativeBase :
    view (fun t => (t.rb, t.pc)) (step (small [109, -3, 99])) = some (-3, 2) := by decide
/-- Vector S2, its second instruction: the relative source uses the old `rb`. -/
theorem test_adjustRelativeBase_relative :
    view (fun t => t.rb) (step (((small [109, 4, 209, -2, 99]).setPc 2).setRb 4)) = some 213 := by decide
/-- Vector S4. -/
theorem test_halt :
    view (fun t => (t.ret, t.pc, t.fHalted)) (step (small [99])) = some (some .halt, 1, true) := by decide
/-- Vectors A13 and S3, their second instructions. -/
theorem test_relative_address_faults :
    view faultOf (step (((small [109, 32767, 22201, 1, 1, 1, 99]).setPc 2).setRb 32767)) =
      some (some (.arithOverflow, some 2, 32768)) ∧
    view faultOf (step (((small [109, -5, 204, 2, 99]).setPc 2).setRb (-5))) =
      some (some (.badAddress, some 2, -3)) := by decide
/-- Vectors D5 and D8. -/
theorem test_bad_word_faults :
    view faultOf (step (small [100001, 0, 0, 0, 99])) = some (some (.badOpcode, some 0, 100001)) ∧
    view faultOf (step ((small [1103, 0, 99]).setInReg (some 1))) = some (some (.badMode, some 0, 1103)) := by decide
/-- Vectors D11 and D12. -/
theorem test_address_limit_and_empty_image :
    view faultOf (step (small [1, 100, 0, 0, 99])) = some (some (.badAddress, some 0, 100)) ∧
    view faultOf (step (small [])) = some (some (.badOpcode, some 0, 0)) := by decide
/-- The instruction placed at `pc` is the one the next step runs (vector S4 on `State.reset`). -/
theorem test_withFetchWord_runs :
    view (fun t => (t.cur, t.ret)) (step (State.reset.withFetchWord 8 99)) = some (some .halt, some .halt) := by decide

/-! ## Host operations and program text -/

/-- Vector M1. -/
theorem test_parse_drops_tokens : parse .w64 " 1101 , 2,x,3, 7 ,,99\n".toList = [1101, 2, 3, 7, 99] := by decide
/-- Vectors M2 and M3. -/
theorem test_parse_range_and_signs :
    parse .w16 "1101,40000,2,3,4,99".toList = [1101, 2, 3, 4, 99] ∧ parse .w64 "+5,-0,007".toList = [5, 0, 7] := by
  decide
/-- Vectors D13 and M4, at `MEM_LIMIT = 50`. -/
theorem test_peek_poke :
    (hostOp 0 (.peek 49) (hostOp 0 (.poke 49 4) (small [1101, 0, 0, 0, 99])).2).1 = .word 4 ∧
    faultOf (hostOp 0 (.peek 60) (small [99])).2 = some (.badAddress, none, 60) := by decide
/-- Vector I6. -/
theorem test_second_input_replaces :
    (hostOp 0 (.setInput 2) (hostOp 0 (.setInput 1) (small [3, 0, 4, 0, 99])).2).2.inReg = some 2 := by decide

/-! ## Witnesses: a state and operands that meet the hypotheses of each clause of each obligation -/

theorem witness_EncodeOfDecodeIsWords :
    decode [1101, 2, 3, 7, 99] = .ok (.add (.immediate 2) (.immediate 3) (.positional 7), [99]) := rfl
theorem witness_EncodedWordsFitWidth :
    (Instr.add (.immediate 32767) (.positional (-32768)) (.relative 0)).wf .w16 = true ∧
    (32767 : Int) ∈ encode (.add (.immediate 32767) (.positional (-32768)) (.relative 0)) := by decide
theorem witness_HeadRejectsExactlyIllFormed_range :
    ((-1 : Int) < 0 ∨ 100000 ≤ (-1 : Int)) ∧ ((100000 : Int) < 0 ∨ 100000 ≤ (100000 : Int)) := by decide
theorem witness_HeadRejectsExactlyIllFormed_opcode :
    0 < 100000 ∧ paramCount (0 % 100) = none ∧ 99998 < 100000 ∧ paramCount (99998 % 100) = none := by decide
theorem witness_HeadRejectsExactlyIllFormed_mode :
    paramCount (301 % 100) = some 3 ∧ badModeDigit 3 301 1 ∧ paramCount (199 % 100) = some 0 ∧ badModeDigit 0 199 1 ∧
    paramCount (1103 % 100) = some 1 ∧ badModeDigit 1 1103 2 ∧ paramCount (10005 % 100) = some 2 ∧
    badModeDigit 2 10005 3 ∧ paramCount (99999 % 100) = some 0 ∧ badModeDigit 0 99999 1 := by
  unfold badModeDigit; decide
theorem witness_HeadRejectsExactlyIllFormed_accepted :
    paramCount (22208 % 100) = some 3 ∧
    ¬ (badModeDigit 3 22208 1 ∨ badModeDigit 3 22208 2 ∨ badModeDigit 3 22208 3) := by
  unfold badModeDigit; decide
theorem witness_AddressViewChecksRange :
    (-1 : Int) < 0 ∧ ((cfg16 .fault .sparse).memLimit : Int) ≤ 50 ∧ 49 < (cfg16 .fault .sparse).memLimit := by decide
theorem witness_SumAndProductNarrowExactResult :
    Width.w16.fits (32767 + 0) = true ∧ Width.w16.fits (32767 + 1) = false ∧ Width.w16.fits (256 * 128) = false ∧
    (cfg16 .fault .sparse).overflow = .fault ∧ (cfg16 .wrap .sparse).overflow = .wrap ∧
    (Width.w16.fits (-32768) = true ∧ (2 : Int) ^ Width.w16.bits ∣ (32767 + 1) - (-32768)) := by decide
theorem witness_EffectiveAddressTranslates_positional :
    49 < (small []).cfg.memLimit ∧ ((-1 : Int) < 0 ∨ ((small []).cfg.memLimit : Int) ≤ -1) ∧
    ((50 : Int) < 0 ∨ ((small []).cfg.memLimit : Int) ≤ 50) := by decide
theorem witness_EffectiveAddressTranslates_relative :
    NarrowsTo (small []).cfg (((small []).setRb 50).rb + (-1)) (49 : Nat) ∧ 49 < (small []).cfg.memLimit ∧
    NarrowsTo (small []).cfg (((small []).setRb 50).rb + 0) 50 ∧ ((small []).cfg.memLimit : Int) ≤ 50 ∧
    NarrowsTo (smallWrap []).cfg (((smallWrap []).setRb 32767).rb + 1) (-32768) ∧ (-32768 : Int) < 0 := by
  unfold NarrowsTo; decide
theorem witness_EffectiveAddressTranslates_overflow :
    (small []).cfg.width.fits (((small []).setRb 32767).rb + 1) = false ∧ (small []).cfg.overflow = .fault := by decide
theorem witness_OperandsReadAndWriteTheirCell :
    ea (small []) (.positional 49) = .ok (some 49) ∧ ea ((small []).setRb 3) (.relative (-3)) = .ok (some 0) ∧
    ea (small []) (.positional 50) = .error { cause := .badAddress, info := 50 } := ⟨rfl, rfl, rfl⟩
theorem witness_backends_initial :
    (cfg16 .fault .dense).backend = .dense ∧ (cfg16 .fault .sparse).backend = .sparse := by decide
theorem witness_DenseBackendGrows :
    cellsGet (backendWrite .dense { cells := [(3, 7)], len := 5 } 9 8).cells 3 = some 7 ∧ (3 : Nat) ≠ 9 := by decide
theorem witness_SparseBackendZeroFills :
    cellsGet [(3, (7 : Word))] 3 = some 7 ∧ cellsGet [(3, (7 : Word))] 4 = none ∧ 4 ≤ 4 ∧ 4 < 5 ∧ (3 : Nat) ≠ 4 := by
  decide
theorem witness_ReadGivesLastWriteElseImageElseZero :
    small [1, 2] = State.initial (small [1, 2]).cfg (small [1, 2]).image ∧
    (∃ u, resetState (small [1, 2]) = resetState u) ∧
    (∀ x ∈ [Access.write 49 5, .read 0], x.addr < (small [1, 2]).cfg.memLimit) ∧ 49 < (small [1, 2]).cfg.memLimit :=
  ⟨rfl, ⟨_, rfl⟩, by decide, by decide⟩
theorem witness_OverlayCanonicalFormKept :
    Memory.wf { cells := [(3, 7), (9, 0)], len := 5 } = true ∧ Memory.wf { cells := [(9, 0), (3, 7)], len := 5 } = false ∧
    (∀ a, cellsGet [(3, (7 : Word))] a = cellsGet [(3, 7)] a) := ⟨rfl, rfl, fun _ => rfl⟩
/-- The fault clauses of the rules of `Add`, `Mul`, `LessThan`, `Equal` and the jumps, of their first and second
operand and of the destination. -/
theorem witness_rules_operand_faults :
    operandVal (small []) (.positional (-1)) = .error { cause := .badAddress, info := -1 } ∧
    operandVal (small [7]) (.positional 0) = .ok 7 ∧
    operandVal (small [7]) (.positional 50) = .error { cause := .badAddress, info := 50 } ∧
    ea (small [7]) (.relative (-1)) = .error { cause := .badAddress, info := -1 } := ⟨rfl, rfl, rfl, rfl⟩
/-- The storing and the discarding clause of the same rules. -/
theorem witness_rules_destinations :
    operandVal ((small [7, 8]).setRb 1) (.relative 0) = .ok 8 ∧ operandVal (small [7]) (.immediate 5) = .ok 5 ∧
    ea (small [7]) (.positional 49) = .ok (some 49) ∧ ea (small [7]) (.immediate 49) = .ok none := ⟨rfl, rfl, rfl, rfl⟩
theorem witness_AddFollowsItsRule :
    NarrowsTo (small [7]).cfg (7 + 5) 12 ∧ NarrowsTo (smallWrap []).cfg (32767 + 1) (-32768) ∧
    (small [7]).cfg.width.fits (32767 + 1) = false ∧ (small [7]).cfg.overflow = .fault := by unfold NarrowsTo; decide
theorem witness_MulFollowsItsRule :
    NarrowsTo (small [7]).cfg (7 * 5) 35 ∧ NarrowsTo (smallWrap []).cfg (256 * 128) (-32768) ∧
    (small [7]).cfg.width.fits (256 * 128) = false ∧ (small [7]).cfg.overflow = .fault := by unfold NarrowsTo; decide
theorem witness_LessThanFollowsItsRule :
    (1 : Int) = (if (-1 : Int) < 0 then 1 else 0) ∧ (0 : Int) = (if (3 : Int) < 3 then 1 else 0) := by decide
theorem witness_EqualFollowsItsRule :
    (1 : Int) = (if (7 : Int) = 7 then 1 else 0) ∧ (0 : Int) = (if (7 : Int) = -7 then 1 else 0) := by decide
/-- An `In` that has been decoded at address 0 and found no Word. -/
def awaiting : State :=
  ((((small [3, 49, 99]).setPc 2).setAwaitIn true).setCur (some (.inp (.positional 49)))).setRet (some .input)
theorem witness_InFollowsItsRule :
    (awaiting.setInReg (some 8)).inReg = some 8 ∧ ea (awaiting.setInReg (some 8)) (.positional 49) = .ok (some 49) ∧
    ea (awaiting.setInReg (some 8)) (.immediate 3) = .ok none ∧
    ea (awaiting.setInReg (some 8)) (.positional 50) = .error { cause := .badAddress, info := 50 } ∧
    awaiting.inReg = none ∧ awaiting.fault = none ∧ awaiting.fAwaitIn = true ∧ awaiting.fHalted = false ∧
    awaiting.cur = some (.inp (.positional 49)) := ⟨rfl, rfl, rfl, rfl, rfl, rfl, rfl, rfl, rfl⟩
theorem witness_OutFollowsItsRule :
    operandVal ((small [4, 0]).afterDecode (.out (.positional 0))) (.positional 0) = .ok 4 ∧
    ((small [4, 0]).afterDecode (.out (.positional 0))).fault = none ∧
    ((small [4, 0]).afterDecode (.out (.positional 0))).fHasOut = true ∧
    ((small [4, 0]).afterDecode (.out (.positional 0))).fAwaitIn = false ∧
    ((small [4, 0]).afterDecode (.out (.positional 0))).fHalted = false ∧
    operandVal ((small [4, 50]).afterDecode (.out (.positional 50))) (.positional 50) =
      .error { cause := .badAddress, info := 50 } := ⟨rfl, rfl, rfl, rfl, rfl, rfl⟩
theorem witness_OutFollowsItsRule_machine : (small [4, 0]).Inv ∧ (small [4, 0]).fault = none := by decide
theorem witness_JumpIfTrueFollowsItsRule :
    ¬ ((0 : Int) ≠ 0) ∧ (-1 : Int) ≠ 0 ∧ ((-1 : Int) < 0 ∨ ((small []).cfg.memLimit : Int) ≤ -1) ∧
    ((50 : Int) < 0 ∨ ((small []).cfg.memLimit : Int) ≤ 50) ∧ 49 < (small []).cfg.memLimit := by decide
theorem witness_JumpIfTrueFollowsItsRule_operands :
    operandVal (small []) (.immediate (-1)) = .ok (-1) ∧ operandVal (small []) (.immediate 49) = .ok ((49 : Nat) : Int) ∧
    operandVal (small []) (.positional 49) = .ok 0 := ⟨rfl, rfl, rfl⟩
theorem witness_JumpIfFalseFollowsItsRule :
    ¬ ((5 : Int) = 0) ∧ (0 : Int) = 0 ∧ operandVal (small []) (.positional 49) = .ok 0 ∧
    operandVal (small []) (.immediate 5) = .ok 5 ∧ 49 < (small []).cfg.memLimit :=
  ⟨by decide, rfl, rfl, rfl, by decide⟩
theorem witness_AdjustRelativeBaseFollowsItsRule :
    operandVal (small [109, 7]) (.immediate (-7)) = .ok (-7) ∧
    operandVal (small []) (.positional (-1)) = .error { cause := .badAddress, info := -1 } ∧
    (small []).cfg.width.fits (((small []).setRb (-32768)).rb + (-7)) = false ∧ (small []).cfg.overflow = .fault :=
  ⟨rfl, rfl, rfl, rfl⟩
theorem witness_AdjustRelativeBaseFollowsItsRule_sum :
    NarrowsTo (small []).cfg (((small []).setRb 6).rb + (-7)) (-1) ∧
    NarrowsTo (smallWrap []).cfg (((smallWrap []).setRb (-32768)).rb + (-1)) 32767 := by unfold NarrowsTo; decide
theorem witness_AdjustRelativeBaseFollowsItsRule_only :
    view (fun t => t.rb) (exec (.adjustRelativeBase (.immediate 7)) (small [])) = some 7 ∧ (7 : Int) ≠ (small []).rb := by
  decide
/-- A machine that has halted at address 0. -/
def halted : State := ((((small [99]).setPc 1).setHalted true).setCur (some .halt)).setRet (some .halt)
theorem witness_HaltFollowsItsRule :
    halted.fault = none ∧ halted.fHalted = true ∧ halted.cur = some .halt ∧ (HostOp.run ≠ .reset) ∧
    decode [99] = .ok (.halt, []) := ⟨rfl, rfl, rfl, by decide, rfl⟩
theorem witness_ImmediateDestinationDiscardsWrite :
    operandVal (small [7]) (.positional 0) = .ok 7 ∧ operandVal (small [7]) (.immediate 5) = .ok 5 ∧
    ((small [7]).setInReg (some 5)).inReg = some 5 := ⟨rfl, rfl, rfl⟩
theorem witness_ImmediateDestinationDiscardsWrite_result :
    NarrowsTo (small [7]).cfg (7 + 5) 12 ∧ NarrowsTo (small [7]).cfg (7 * 5) 35 := by unfold NarrowsTo; decide
/-- `Out #5` whose last Word is the last legal address. -/
def endsAtLimit : State := ((small [0]).setOverlay { cells := [(48, 104), (49, 5)], len := 1 }).setPc 48
/-- `Out` whose operand Word would be at `MEM_LIMIT`. -/
def crossesLimit : State := ((small [0]).setOverlay { cells := [(49, 104)], len := 1 }).setPc 49
theorem witness_StepRunsDecodedInstruction :
    endsAtLimit.fault = none ∧ endsAtLimit.pending = false ∧
    endsAtLimit.pc + (Instr.out (.immediate 5)).length ≤ endsAtLimit.cfg.memLimit ∧
    decode (endsAtLimit.wordsAt endsAtLimit.pc) = .ok (.out (.immediate 5), [0, 0]) := ⟨rfl, rfl, by decide, rfl⟩
theorem witness_StepReexecutesPendingInstruction :
    awaiting.fault = none ∧ awaiting.pending = true ∧ awaiting.cur = some (.inp (.positional 49)) ∧
    awaiting.inRun = false ∧ 49 < awaiting.cfg.memLimit := ⟨rfl, rfl, rfl, rfl, by decide⟩
theorem witness_BadInstructionWordFaults :
    (small [-1]).fault = none ∧ (small [-1]).pending = false ∧ (small [-1]).pc < (small [-1]).cfg.memLimit ∧
    (small [-1]).wordAt (small [-1]).pc < (0 : Int) := by decide
theorem witness_BadInstructionWordFaults_oversized :
    (State.initial Config.standard [100000]).fault = none ∧
    (State.initial Config.standard [100000]).pending = false ∧
    (State.initial Config.standard [100000]).pc < (State.initial Config.standard [100000]).cfg.memLimit ∧
    (100000 : Int) ≤ (State.initial Config.standard [100000]).wordAt 0 := by decide
theorem witness_BadInstructionWordFaults_digits :
    (small [98]).wordAt 0 = (98 : Nat) ∧ paramCount (98 % 100) = none ∧ (small [1103]).wordAt 0 = (1103 : Nat) ∧
    paramCount (1103 % 100) = some 1 ∧ badModeDigit 1 1103 2 := by unfold badModeDigit; decide
theorem witness_FetchAtMemLimitFaults :
    (endsAtLimit.setPc 50).fault = none ∧ (endsAtLimit.setPc 50).pending = false ∧
    (endsAtLimit.setPc 50).cfg.memLimit ≤ (endsAtLimit.setPc 50).pc := by decide
theorem witness_FetchAtMemLimitFaults_operand :
    crossesLimit.fault = none ∧ crossesLimit.pending = false ∧ crossesLimit.pc < crossesLimit.cfg.memLimit ∧
    decode (crossesLimit.wordsAt crossesLimit.pc) = .ok (.out (.immediate 0), [0, 0]) ∧
    crossesLimit.cfg.memLimit < crossesLimit.pc + (Instr.out (.immediate 0)).length :=
  ⟨rfl, rfl, by decide, rfl, by decide⟩
theorem witness_FaultStateIsTerminal :
    view (fun t => t.fault.isSome) (step (small [0])) = some true ∧
    (hostOp 0 (.peek 60) (small [])).2.fault ≠ none ∧ (hostOp 2 .run (small [0])).2.fault ≠ none ∧
    (takeFault none { cause := .badAddress, info := 60 } (small [])).fault =
      some { cause := .badAddress, loc := none, info := 60 } := by decide
theorem witness_StepKeepsInvariant :
    (small [1101, 1, 98, 4, 0]).Inv ∧ awaiting.Inv ∧ halted.Inv ∧ (smallWrap [3, 3, 99, 0]).Inv ∧
    view (fun t => t.wordAt 4) (step (small [1101, 1, 98, 4, 0])) = some 99 := by decide
theorem witness_HostOpKeepsInvariant :
    awaiting.Inv ∧ (HostOp.setInput 32767).wf awaiting.cfg.width = true ∧
    (HostOp.poke 49 (-32768)).wf awaiting.cfg.width = true := by decide
theorem witness_ConstructionMeetsInvariant : (cfg16 .fault .dense).wf = true := by decide
theorem witness_HealthyMachineAlwaysSteps : awaiting.Inv ∧ awaiting.fault = none := by decide
theorem witness_AtMostOneFlagSet :
    awaiting.Inv ∧ awaiting.fault = none ∧ view (fun t => (t.fault, t.fAwaitIn)) (tick awaiting) = some (none, true) := by
  decide
theorem witness_HaltedMachineStaysHalted :
    halted.Inv ∧ halted.fault = none ∧ halted.fHalted = true ∧ view (fun t => t.fHalted) (step halted) = some true := by
  decide
theorem witness_OutputIsHandedOverOnce :
    (small [104, 42, 99]).Inv ∧ (small [104, 42, 99]).fault = none ∧ (small [104, 42, 99]).pending = false ∧
    (small [104, 42, 99]).pc + 2 ≤ (small [104, 42, 99]).cfg.memLimit := by decide
theorem witness_OutputIsHandedOverOnce_decoded :
    decode ((small [104, 42, 99]).wordsAt 0) = .ok (.out (.immediate 42), [99, 0]) ∧
    operandVal (small [104, 42, 99]) (.immediate 42) = .ok 42 := ⟨rfl, rfl⟩
theorem witness_RunReturnsOnlyARaisedInterrupt :
    (runFor 1 (small [99])).1 = .interrupt .halt ∧ (runFor 1 (small [3, 0])).1 = .interrupt .input ∧
    (runFor 1 (small [104, 42])).1 = .interrupt (.output 42) := by decide
/-- Vectors I4 and M5: a fresh dense machine, and a sparse traced one that was poked and has halted. Two histories,
and after `reset()` one session. -/
theorem witness_ResetThenSameCallsRepeat :
    ∃ s s', Reach (newMachine (cfg16 .fault .dense) "3,0,4,0,99".toList) s ∧ s.fault = none ∧ s.inRun = false ∧
      Reach (debugMachine { cfg16 .fault .dense with backend := .sparse } "3,0,4,0,99".toList) s' ∧
      s'.fault = none ∧ s'.inRun = false ∧ s'.fHalted = true ∧
      (∃ t, Session (hostOp 0 .reset s).2 [.run, .setInput 7, .run, .run, .peek 0]
        [.interrupt .input, .done, .interrupt (.output 7), .interrupt .halt, .word 7] t) ∧
      ∃ t, Session (hostOp 0 .reset s').2 [.run, .setInput 7, .run, .run, .peek 0]
        [.interrupt .input, .done, .interrupt (.output 7), .interrupt .halt, .word 7] t :=
  ⟨_, _, .start, rfl, rfl, .op (.op .start 0 (.poke 0 99) rfl) 0 .run rfl, rfl, rfl, rfl,
    ⟨_, .cons 0 rfl (by decide) (.cons 0 rfl (by decide) (.cons 1 rfl (by decide) (.cons 0 rfl (by decide)
      (.cons 0 rfl (by decide) (.nil _)))))⟩,
    ⟨_, .cons 0 rfl (by decide) (.cons 0 rfl (by decide) (.cons 1 rfl (by decide) (.cons 0 rfl (by decide)
      (.cons 0 rfl (by decide) (.nil _)))))⟩⟩
/-- The loops of `SelfJumpHangs`: each jump to its own address, taken. -/
theorem witness_SelfJumpHangs :
    (small [1105, -1, 0]).fault = none ∧ (small [1105, -1, 0]).pending = false ∧
    (small [1105, -1, 0]).pc + 3 ≤ (small [1105, -1, 0]).cfg.memLimit ∧
    decode ((small [1105, -1, 0]).wordsAt 0) = .ok (.jumpIfTrue (.immediate (-1)) (.immediate 0), [0]) ∧
    decode ((small [1106, 0, 0]).wordsAt 0) = .ok (.jumpIfFalse (.immediate 0) (.immediate 0), [0]) ∧
    operandVal (small [1105, -1, 0]) (.immediate 0) = .ok ((small [1105, -1, 0]).pc : Int) :=
  ⟨rfl, rfl, by decide, rfl, rfl, rfl⟩
/-- The machine of vector J8 after its first tick. -/
def looping : State := (small [1105, 1, 0]).setCur (some (.jumpIfTrue (.immediate 1) (.immediate 0)))
theorem witness_RunHasNoTimeout :
    (small [1105, 1, 0]).Inv ∧ ∀ t, Steps (small [1105, 1, 0]) t → t.fault = none ∧ t.ret = none := by
  refine ⟨by decide, fun t h => ?_⟩
  have e1 : step (small [1105, 1, 0]) = .next looping := rfl
  have e2 : step looping = .next looping := rfl
  suffices t = looping by subst this; exact ⟨rfl, rfl⟩
  induction h with
  | one h => rw [e1] at h; injection h with h; exact h.symm
  | more _ h ih => subst ih; rw [e2] at h; injection h with h; exact h.symm
theorem witness_hostOps_healthy :
    awaiting.fault = none ∧ awaiting.inRun = false ∧ 49 < awaiting.cfg.memLimit ∧ awaiting.cfg.memLimit ≤ 50 := by decide
/-- A machine a host has run, poked and supplied with input is reached and has not faulted. -/
theorem witness_ResetEqualsFreshMachine :
    ∃ s, Reach (newMachine (cfg16 .fault .dense) "3,0,99".toList) s ∧ s.fault = none ∧ s.inRun = false ∧ s.fAwaitIn = true ∧
      s.overlay.len = 10 ∧ s.inReg = some 5 :=
  ⟨_, .op (.op (.op .start 0 .run rfl) 0 (.poke 9 1) rfl) 0 (.setInput 5) rfl, rfl, rfl, rfl, rfl, rfl⟩
/-- A `run()` followed for its first tick alone is still executing, and a `poke` there does not begin (R169). -/
theorem witness_HostActsOnlyBetweenRuns :
    (hostOp 0 .run (small [1105, 1, 0])).1 = .running ∧ (hostOp 0 .run (small [1105, 1, 0])).2 = looping ∧
    looping.inRun = true ∧ HostOp.poke 2 3 ≠ .run ∧ hostOp 0 (.poke 2 3) looping = (.running, looping) := by decide
theorem witness_HostActsOnlyBetweenRuns_returned :
    (hostOp 0 .run (small [99])).1 = .interrupt .halt ∧ awaiting.inRun = false ∧ HostOp.setInput 5 ≠ .run := by decide
theorem witness_ProgramTextLoadsItsTokens_single : ',' ∉ [' ', '7'] := by decide
theorem witness_ProgramTextLoadsItsTokens_token :
    tokenWord .w16 " -32768\n".toList = some (-32768) ∧ tokenWord .w16 "32768".toList = none := by decide
theorem witness_StepIgnoresBackend :
    ((small [99]).forgetBackend = { small [99] with overlay := { cells := [], len := 0 } }) ∧
    (smallWrap [99]).forgetBackend =
      (State.initial (cfg16 .wrap .sparse) [99]).forgetBackend := ⟨rfl, rfl⟩
theorem witness_StepAtGreaterWidthAgrees :
    (small [1101, 1, 98, 4, 0]).cfg.overflow = .fault ∧ (small [1101, 1, 98, 4, 0]).cfg.width.bits ≤ Width.w128.bits ∧
    view (fun t => t.fault) (step (small [1101, 1, 98, 4, 0])) = some none ∧
    view faultOf (step (small [1101, 1, 98, -4, 0])) = some (some (.badAddress, some 0, -4)) := by decide
theorem witness_MachinesShareNothingButFaults :
    (∀ x ∈ [small [99], small []], x.fault = none) ∧ [small [99], small []][1]? = some (small []) ∧
    (∃ m ∈ [small [99], takeFault none { cause := .badAddress, info := 60 } (small [])], m.fault ≠ none) := by decide

end Sys2Proof.Tests
end

section
/-! SUPPORT. 00_scope.md: the Word primitives (R13, R14) and the Words of an encoding (R6, R77). -/

namespace Sys2Proof

/-- `2^W` in the two spellings the model uses (R7, R14). -/
theorem Width.two_pow_bits (w : Width) : (2 : Int) ^ w.bits = 2 * w.half := by cases w <;> decide

/-- Two Words congruent modulo `2^W` are equal (R14, "the unique Word"). -/
theorem Width.fits_unique {w : Width} {r r' : Int} (hr : w.fits r = true) (hr' : w.fits r' = true)
    (hd : 2 * w.half ∣ r - r') : r = r' := by
  rw [Width.fits_iff, Width.wmin, Width.wmax] at hr hr'
  have hz : r - r' = 0 := Int.eq_zero_of_abs_lt_dvd hd (abs_lt.mpr ⟨by omega, by omega⟩)
  omega

/-- Every width holds the integers of 16 bits (R6, R7). -/
theorem Width.fits_of_lt {w : Width} {n : Nat} (h : n < 32768) : w.fits (n : Int) = true := by
  have h16 : Width.w16.bits ≤ w.bits := by cases w <;> decide
  refine Width.fits_mono h16 ?_
  have hh : Width.w16.half = 32768 := rfl
  rw [Width.fits_iff, Width.wmin, Width.wmax, hh]
  omega

/-- The mode digits of up to three operands are at most 2 each (R71, R92). -/
theorem modeDigits_le (os : List Operand) (hl : os.length ≤ 3) : modeDigits 100 os ≤ 22200 := by
  match os, hl with
  | [], _ => simp [modeDigits]
  | [a], _ => have := mode_digit_le a.mode; simp only [modeDigits]; omega
  | [a, b], _ =>
    have := mode_digit_le a.mode; have := mode_digit_le b.mode; simp only [modeDigits]; omega
  | [a, b, c], _ =>
    have := mode_digit_le a.mode; have := mode_digit_le b.mode; have := mode_digit_le c.mode
    simp only [modeDigits]; omega

theorem Instr.opcode_lt (i : Instr) : i.opcode < 100 := by cases i <;> simp [Instr.opcode]

theorem Instr.operands_length_le (i : Instr) : i.operands.length ≤ 3 := by cases i <;> simp [Instr.operands]

/-- The shape facts proved per instruction, for every instruction. -/
theorem Instr.shape (i : Instr) : Laws.Shape.Statement i :=
  match i with
  | .add a b c => Laws.Shape.add a b c
  | .mul a b c => Laws.Shape.mul a b c
  | .inp a => Laws.Shape.inp a
  | .out a => Laws.Shape.out a
  | .jumpIfTrue a b => Laws.Shape.jumpIfTrue a b
  | .jumpIfFalse a b => Laws.Shape.jumpIfFalse a b
  | .lessThan a b c => Laws.Shape.lessThan a b c
  | .equal a b c => Laws.Shape.equal a b c
  | .adjustRelativeBase a => Laws.Shape.adjustRelativeBase a
  | .halt => Laws.Shape.halt

/-- An instruction is well formed exactly when each of its operands is (R77). -/
theorem Instr.wf_iff {w : Width} {i : Instr} : i.wf w = true ↔ ∀ o ∈ i.operands, o.wf w = true := by
  obtain ⟨hwf, -, -⟩ := i.shape
  rw [hwf w, List.all_eq_true]

/-- Settles O3: the instruction word is at most 22299, a Word of 16 bits, and the other Words are the raw
operand Words. -/
theorem encodedWordsFitWidth : Obligations.EncodedWordsFitWidth := by
  intro w i hi x hx
  rcases List.mem_cons.mp hx with rfl | hraw
  · have hop := i.opcode_lt
    have hmodes := modeDigits_le i.operands i.operands_length_le
    exact Width.fits_of_lt (by omega)
  · obtain ⟨o, ho, rfl⟩ := List.mem_map.mp hraw
    exact Instr.wf_iff.mp hi o ho

end Sys2Proof

namespace Sys2Proof.Machine

/-- `narrow` outside the Word range under `OVERFLOW = Fault` (R14). -/
theorem narrow_fault {cfg : Config} {r : Int} (hr : cfg.width.fits r = false) (ho : cfg.overflow = .fault) :
    narrow cfg r = .error { cause := .arithOverflow, info := r } := by simp [narrow, hr, ho]

/-- `narrow` outside the Word range under `OVERFLOW = Wrap` (R14). -/
theorem narrow_wrap {cfg : Config} {r : Int} (hr : cfg.width.fits r = false) (ho : cfg.overflow = .wrap) :
    narrow cfg r = .ok (wrapWord cfg.width r) := by simp [narrow, hr, ho]

/-- The wrapped result is the one Word congruent to the exact one modulo `2^W` (R14). -/
theorem wrapWord_unique (w : Width) (r : Int) :
    (2 : Int) ^ w.bits ∣ r - wrapWord w r ∧
    ∀ r' : Int, w.fits r' = true → (2 : Int) ^ w.bits ∣ r - r' → r' = wrapWord w r := by
  rw [Width.two_pow_bits]
  have hd : 2 * w.half ∣ r - wrapWord w r := Int.dvd_of_emod_eq_zero (wrapWord_congr w r)
  refine ⟨hd, fun r' hr' hd' => Width.fits_unique hr' (wrapWord_fits w r) ?_⟩
  have he : r' - wrapWord w r = (r - wrapWord w r) - (r - r') := by
    have h (a b c : Int) : a - b = (c - b) - (c - a) := by omega
    exact h _ _ _
  exact he ▸ Int.dvd_sub hd hd'

/-- Settles O8: `wadd` and `wmul` are `narrow` of the exact result, and `narrow` has one law per case of R14. -/
theorem sumAndProductNarrowExactResult : Obligations.SumAndProductNarrowExactResult := by
  intro cfg x y op exact hop
  have hnarrow : op cfg x y = narrow cfg exact := by
    rcases hop with ⟨rfl, rfl⟩ | ⟨rfl, rfl⟩ <;> rfl
  rw [hnarrow]
  refine ⟨narrow_fits, narrow_fault, fun hf ho => ?_⟩
  obtain ⟨hcongr, hunique⟩ := wrapWord_unique cfg.width exact
  exact ⟨_, narrow_wrap hf ho, wrapWord_fits _ _, hcongr, hunique⟩

/-- Settles O7: the two laws of `addrOf`, with the natural number read back from the Word it is. -/
theorem addressViewChecksRange : Obligations.AddressViewChecksRange := by
  refine fun cfg w => ⟨addrOf_error, ?_⟩
  rintro n rfl hn
  exact addrOf_ok (by omega) (by omega)

end Sys2Proof.Machine
end

section
/-! SUPPORT. The same machine under another configuration and another dense length (00_scope.md R8): when the two
configurations narrow alike up to an excused trap, every step of the one is the step of the other. -/

namespace Sys2Proof.Machine

/-- The same machine with its parameters and its dense length replaced (R8). -/
def State.recast (g : Config → Config) (h : Nat → Nat) (s : State) : State :=
  { s with cfg := g s.cfg, overlay := { s.overlay with len := h s.overlay.len } }

section
variable (g : Config → Config) (h : Nat → Nat) (s : State)

@[simp] theorem State.recast_cfg : (s.recast g h).cfg = g s.cfg := rfl
@[simp] theorem State.recast_image : (s.recast g h).image = s.image := rfl
@[simp] theorem State.recast_cells : (s.recast g h).overlay.cells = s.overlay.cells := rfl
@[simp] theorem State.recast_len : (s.recast g h).overlay.len = h s.overlay.len := rfl
@[simp] theorem State.recast_pc : (s.recast g h).pc = s.pc := rfl
@[simp] theorem State.recast_rb : (s.recast g h).rb = s.rb := rfl
@[simp] theorem State.recast_fAwaitIn : (s.recast g h).fAwaitIn = s.fAwaitIn := rfl
@[simp] theorem State.recast_fHasOut : (s.recast g h).fHasOut = s.fHasOut := rfl
@[simp] theorem State.recast_fHalted : (s.recast g h).fHalted = s.fHalted := rfl
@[simp] theorem State.recast_inReg : (s.recast g h).inReg = s.inReg := rfl
@[simp] theorem State.recast_outReg : (s.recast g h).outReg = s.outReg := rfl
@[simp] theorem State.recast_cur : (s.recast g h).cur = s.cur := rfl
@[simp] theorem State.recast_fault : (s.recast g h).fault = s.fault := rfl
@[simp] theorem State.recast_pending : (s.recast g h).pending = s.pending := rfl

end

theorem forgetBackend_eq_recast :
    State.forgetBackend = State.recast (fun c => { c with backend := .sparse }) (fun _ => 0) := rfl

theorem withWidth_eq_recast (s : State) (w : Width) :
    s.withWidth w = s.recast (fun c => { c with width := w }) id := rfl

/-- The dense length after one access (R41); the sparse backend has none. -/
def Backend.lenAfter (b : Backend) (n a : Nat) : Nat :=
  match b with
  | .dense => max n (a + 1)
  | .sparse => n

/-- Two primitives answer alike, unless the first raises a trap whose cause is excused. -/
def TrapFollows {α : Type} (E : Cause → Prop) (e e' : Except Trap α) : Prop :=
  e' = e ∨ ∃ t, e = .error t ∧ E t.cause

theorem TrapFollows.rfl {α : Type} {E : Cause → Prop} {e : Except Trap α} : TrapFollows E e e := .inl (Eq.refl e)

/-- What a machine of configuration `c` and its recast must agree on: the legal addresses, the dense length after an
access seen through `h`, and `narrow` up to the excused causes `E`. -/
structure Mimics (c : Config) (g : Config → Config) (h : Nat → Nat) (E : Cause → Prop) : Prop where
  memLimit : (g c).memLimit = c.memLimit
  lenAfter (n a : Nat) : Backend.lenAfter (g c).backend (h n) a = h (Backend.lenAfter c.backend n a)
  narrow (r : Int) : TrapFollows E (narrow c r) (narrow (g c) r)

/-- The backend is free: nothing but the dense length depends on it (R49). -/
theorem mimics_forgetBackend (c : Config) :
    Mimics c (fun c => { c with backend := .sparse }) (fun _ => 0) (fun _ => False) where
  memLimit := rfl
  lenAfter _ _ := rfl
  narrow _ := .rfl

/-- A greater width narrows alike but for `ArithOverflow` (R7, R14). -/
theorem mimics_withWidth {c : Config} {w : Width} (ho : c.overflow = .fault) (hw : c.width.bits ≤ w.bits) :
    Mimics c (fun c => { c with width := w }) id (· = .arithOverflow) where
  memLimit := rfl
  lenAfter _ _ := rfl
  narrow r := by
    cases hr : c.width.fits r with
    | true =>
      have hwide : narrow { c with width := w } r = .ok r := narrow_fits (Width.fits_mono hw hr)
      exact .inl (by rw [hwide, narrow_fits hr])
    | false => exact .inr ⟨_, narrow_fault hr ho, rfl⟩

/-! ## The commuting diagram of each operation -/

/-- `r'` is the result `r` seen through `f`, unless `r` is an excused trap; the states of `r` keep the
configuration `c`. -/
def Res.Follows {α : Type} (c : Config) (f : State → State) (E : Cause → Prop) : Res α → Res α → Prop
  | .ok v s, r' => s.cfg = c ∧ r' = .ok v (f s)
  | .raise t s, r' => r' = .raise t (f s) ∨ E t.cause

/-- `a'` is the answer `a` with its next state seen through `f`, unless that state is in an excused fault. -/
def AnswerFollows (f : State → State) (E : Cause → Prop) (a a' : Answer) : Prop :=
  a' = mapNext f a ∨ ∃ t r, a = .next t ∧ t.fault = some r ∧ E r.cause

theorem Res.Follows.bind {α β : Type} {c : Config} {f : State → State} {E : Cause → Prop} {r r' : Res α}
    {k k' : α → State → Res β} (hr : r.Follows c f E r')
    (hk : ∀ v s, s.cfg = c → (k v s).Follows c f E (k' v (f s))) : (r.bind k).Follows c f E (r'.bind k') := by
  cases r with
  | ok v s =>
    obtain ⟨hs, rfl⟩ := hr
    exact hk v s hs
  | raise t s =>
    rcases hr with rfl | he
    · exact .inl rfl
    · exact .inr he

section
variable {c : Config} {g : Config → Config} {h : Nat → Nat} {E : Cause → Prop}

theorem liftTrap_follows {α : Type} {e e' : Except Trap α} {s : State} (hs : s.cfg = c)
    (he : TrapFollows E e e') : (liftTrap e s).Follows c (.recast g h) E (liftTrap e' (s.recast g h)) := by
  rcases he with rfl | ⟨t, rfl, ht⟩
  · cases e' with
    | ok v => exact ⟨hs, rfl⟩
    | error t => exact .inl rfl
  · exact .inr ht

theorem conclude_follows {i : Instr} {s : State} {r r' : Res Unit} (hr : r.Follows c (.recast g h) E r') :
    AnswerFollows (.recast g h) E (conclude i s r) (conclude i (s.recast g h) r') := by
  cases r with
  | ok v t =>
    obtain ⟨-, rfl⟩ := hr
    exact .inl rfl
  | raise t u =>
    rcases hr with rfl | he
    · exact .inl rfl
    · exact .inr ⟨_, _, rfl, rfl, he⟩

/-- Every address reads alike (R47). -/
theorem recast_wordAt (s : State) (a : Nat) : (s.recast g h).wordAt a = s.wordAt a :=
  wordAt_congr (s := s.recast g h) (t := s) rfl rfl a

/-- An overlay is its cells and its length. -/
theorem Memory.ext_fields {m n : Memory} (hc : m.cells = n.cells) (hl : m.len = n.len) : m = n := by
  cases m; cases n; cases hc; cases hl; rfl

variable (hm : Mimics c g h E)
include hm

theorem recast_touch {s : State} (hs : s.cfg = c) (a : Nat) : (s.recast g h).touch a = (s.touch a).recast g h := by
  subst hs
  have hov : ((s.recast g h).touch a).overlay = ((s.touch a).recast g h).overlay := by
    refine Memory.ext_fields ?_ ?_
    · rw [touch_cells]; exact (touch_cells s a).symm
    · have h1 := hm.lenAfter s.overlay.len a
      have h2 := backendRead_len s.cfg.backend s.image.length s.overlay a
      have h3 := backendRead_len (g s.cfg).backend s.image.length (s.recast g h).overlay a
      exact h3.trans (h1.trans (congrArg h h2.symm))
  exact congrArg (s.recast g h).setOverlay hov

theorem recast_stored {s : State} (hs : s.cfg = c) (a : Nat) (v : Word) :
    (s.recast g h).stored a v = (s.stored a v).recast g h := by
  subst hs
  have hov : ((s.recast g h).stored a v).overlay = ((s.stored a v).recast g h).overlay := by
    refine Memory.ext_fields ?_ ?_
    · exact (backendWrite_cells _ _ a v).trans (backendWrite_cells s.cfg.backend s.overlay a v).symm
    · have h1 := hm.lenAfter s.overlay.len a
      have h2 := backendWrite_len s.cfg.backend s.overlay a v
      have h3 := backendWrite_len (g s.cfg).backend (s.recast g h).overlay a v
      exact h3.trans (h1.trans (congrArg h h2.symm))
  exact congrArg (s.recast g h).setOverlay hov

theorem memRead_follows {s : State} (hs : s.cfg = c) (a : Nat) :
    (memRead a s).Follows c (.recast g h) E (memRead a (s.recast g h)) := by
  subst hs
  have hlim : (s.recast g h).cfg.memLimit = s.cfg.memLimit := hm.memLimit
  by_cases ha : a < s.cfg.memLimit
  · rw [memRead_ok ha, memRead_ok (ha.trans_eq hlim.symm), recast_wordAt, recast_touch hm rfl]
    exact ⟨rfl, rfl⟩
  · rw [memRead_raise (Nat.le_of_not_lt ha), memRead_raise (hlim.trans_le (Nat.le_of_not_lt ha))]
    exact .inl rfl

theorem memWrite_follows {s : State} (hs : s.cfg = c) (a : Nat) (v : Word) :
    (memWrite a v s).Follows c (.recast g h) E (memWrite a v (s.recast g h)) := by
  subst hs
  have hlim : (s.recast g h).cfg.memLimit = s.cfg.memLimit := hm.memLimit
  by_cases ha : a < s.cfg.memLimit
  · rw [memWrite_ok ha, memWrite_ok (ha.trans_eq hlim.symm), recast_stored hm rfl]
    exact ⟨rfl, rfl⟩
  · rw [memWrite_raise (Nat.le_of_not_lt ha), memWrite_raise (hlim.trans_le (Nat.le_of_not_lt ha))]
    exact .inl rfl

theorem addrOf_recast (w : Int) : addrOf (g c) w = addrOf c w := by
  simp only [addrOf, hm.memLimit]

theorem eaPositional_follows {s : State} (hs : s.cfg = c) (w : Word) :
    TrapFollows E (eaPositional s w) (eaPositional (s.recast g h) w) := by
  subst hs
  exact .inl (addrOf_recast hm w)

theorem eaRelative_follows {s : State} (hs : s.cfg = c) (w : Word) :
    TrapFollows E (eaRelative s w) (eaRelative (s.recast g h) w) := by
  subst hs
  rcases hm.narrow (s.rb + w) with hn | ⟨t, hn, ht⟩
  · have hsum : wadd (s.recast g h).cfg (s.recast g h).rb w = wadd s.cfg s.rb w := hn
    refine .inl ?_
    simp only [eaRelative, hsum]
    cases wadd s.cfg s.rb w with
    | ok x => exact addrOf_recast hm x
    | error t => rfl
  · have hsum : wadd s.cfg s.rb w = .error t := hn
    exact .inr ⟨t, by simp only [eaRelative, hsum], ht⟩

theorem readOp_follows {s : State} (hs : s.cfg = c) (o : Operand) :
    (readOp o s).Follows c (.recast g h) E (readOp o (s.recast g h)) := by
  cases o with
  | immediate w => exact ⟨hs, rfl⟩
  | positional w =>
    exact (liftTrap_follows hs (eaPositional_follows hm hs w)).bind fun a t ht => memRead_follows hm ht a
  | relative w =>
    exact (liftTrap_follows hs (eaRelative_follows hm hs w)).bind fun a t ht => memRead_follows hm ht a

theorem writeOp_follows {s : State} (hs : s.cfg = c) (o : Operand) (v : Word) :
    (writeOp o v s).Follows c (.recast g h) E (writeOp o v (s.recast g h)) := by
  cases o with
  | immediate w => exact ⟨hs, rfl⟩
  | positional w =>
    exact (liftTrap_follows hs (eaPositional_follows hm hs w)).bind fun a t ht => memWrite_follows hm ht a v
  | relative w =>
    exact (liftTrap_follows hs (eaRelative_follows hm hs w)).bind fun a t ht => memWrite_follows hm ht a v

theorem twoSources_follows {s : State} (hs : s.cfg = c) {F : Config → Int → Int → Except Trap Word}
    (hF : ∀ x y, TrapFollows E (F c x y) (F (g c) x y)) (o₁ o₂ o₃ : Operand) :
    (twoSources F o₁ o₂ o₃ s).Follows c (.recast g h) E (twoSources F o₁ o₂ o₃ (s.recast g h)) := by
  refine (readOp_follows hm hs o₁).bind fun x s₁ h₁ => ?_
  refine (readOp_follows hm h₁ o₂).bind fun y s₂ h₂ => ?_
  have hresult : TrapFollows E (F s₂.cfg x y) (F (s₂.recast g h).cfg x y) := by
    subst h₂
    exact hF x y
  exact (liftTrap_follows h₂ hresult).bind fun r s₃ h₃ => writeOp_follows hm h₃ o₃ r

theorem jumpWhen_follows {s : State} (hs : s.cfg = c) (taken : Int → Bool) (o₁ o₂ : Operand) :
    (jumpWhen taken o₁ o₂ s).Follows c (.recast g h) E (jumpWhen taken o₁ o₂ (s.recast g h)) := by
  refine (readOp_follows hm hs o₁).bind fun x s₁ h₁ => ?_
  refine (readOp_follows hm h₁ o₂).bind fun y s₂ h₂ => ?_
  cases taken x with
  | false => exact ⟨h₂, rfl⟩
  | true =>
    have htarget : TrapFollows E (addrOf s₂.cfg y) (addrOf (s₂.recast g h).cfg y) := by
      subst h₂
      exact .inl (addrOf_recast hm y)
    exact (liftTrap_follows h₂ htarget).bind fun p s₃ h₃ => ⟨h₃, rfl⟩

theorem execIn_follows {s : State} (hs : s.cfg = c) (o : Operand) :
    AnswerFollows (.recast g h) E (execIn o s) (execIn o (s.recast g h)) := by
  cases hin : s.inReg with
  | none =>
    have hin' : (s.recast g h).inReg = none := hin
    exact .inl (by simp only [execIn, hin, hin', mapNext])
  | some v =>
    have hin' : (s.recast g h).inReg = some v := hin
    simp only [execIn, hin, hin']
    exact conclude_follows (writeOp_follows hm (s := (s.setInReg none).setAwaitIn false) hs o v)

theorem execAdjustRelativeBase_follows {s : State} (hs : s.cfg = c) (o : Operand) :
    AnswerFollows (.recast g h) E (execAdjustRelativeBase o s) (execAdjustRelativeBase o (s.recast g h)) := by
  refine conclude_follows ((readOp_follows hm hs o).bind fun x s₁ h₁ => ?_)
  have hsum : TrapFollows E (wadd s₁.cfg s₁.rb x) (wadd (s₁.recast g h).cfg (s₁.recast g h).rb x) := by
    subst h₁
    exact hm.narrow _
  exact (liftTrap_follows h₁ hsum).bind fun r s₂ h₂ => ⟨h₂, rfl⟩

/-- Every instruction commutes with the recast (R161). -/
theorem exec_follows {s : State} (hs : s.cfg = c) (i : Instr) :
    AnswerFollows (.recast g h) E (exec i s) (exec i (s.recast g h)) := by
  cases i with
  | add a b d => exact conclude_follows (twoSources_follows hm hs (fun _ _ => hm.narrow _) a b d)
  | mul a b d => exact conclude_follows (twoSources_follows hm hs (fun _ _ => hm.narrow _) a b d)
  | lessThan a b d => exact conclude_follows (twoSources_follows hm hs (fun _ _ => .rfl) a b d)
  | equal a b d => exact conclude_follows (twoSources_follows hm hs (fun _ _ => .rfl) a b d)
  | inp a => exact execIn_follows hm hs a
  | out a => exact conclude_follows ((readOp_follows hm hs a).bind fun v t ht => ⟨ht, rfl⟩)
  | jumpIfTrue a b => exact conclude_follows (jumpWhen_follows hm hs _ a b)
  | jumpIfFalse a b => exact conclude_follows (jumpWhen_follows hm hs _ a b)
  | adjustRelativeBase a => exact execAdjustRelativeBase_follows hm hs a
  | halt => exact .inl rfl

theorem fetchWord_follows {s : State} (hs : s.cfg = c) :
    (fetchWord s).Follows c (.recast g h) E (fetchWord (s.recast g h)) :=
  (memRead_follows hm hs s.pc).bind fun _ _ ht => ⟨ht, rfl⟩

theorem fetchParams_follows {s : State} (hs : s.cfg = c) (hd : Head) :
    (fetchParams hd s).Follows c (.recast g h) E (fetchParams hd (s.recast g h)) := by
  cases hd with
  | p0 => exact ⟨hs, rfl⟩
  | p1 op m₁ => exact (fetchWord_follows hm hs).bind fun _ _ h₁ => ⟨h₁, rfl⟩
  | p2 op m₁ m₂ =>
    exact (fetchWord_follows hm hs).bind fun _ _ h₁ => (fetchWord_follows hm h₁).bind fun _ _ h₂ => ⟨h₂, rfl⟩
  | p3 op m₁ m₂ m₃ =>
    exact (fetchWord_follows hm hs).bind fun _ _ h₁ => (fetchWord_follows hm h₁).bind fun _ _ h₂ =>
      (fetchWord_follows hm h₂).bind fun _ _ h₃ => ⟨h₃, rfl⟩

theorem decodeStep_follows {s : State} (hs : s.cfg = c) :
    (decodeStep s).Follows c (.recast g h) E (decodeStep (s.recast g h)) := by
  refine (fetchWord_follows hm hs).bind fun w s₁ h₁ => ?_
  refine (liftTrap_follows h₁ .rfl).bind fun hd s₂ h₂ => ?_
  refine (fetchParams_follows hm h₂ hd).bind fun i s₃ h₃ => ?_
  cases i <;> exact ⟨h₃, rfl⟩

theorem tick_follows {s : State} (hs : s.cfg = c) :
    AnswerFollows (.recast g h) E (tick s) (tick (s.recast g h)) := by
  cases hp : s.pending with
  | true =>
    have hp' : (s.recast g h).pending = true := hp
    cases hc : s.cur with
    | some i =>
      have hc' : (s.recast g h).cur = some i := hc
      rw [tick_pending hp hc, tick_pending hp' hc']
      exact exec_follows hm hs i
    | none =>
      have hc' : (s.recast g h).cur = none := hc
      exact .inl (by simp only [tick, hp, hp', hc, hc', if_true, mapNext])
  | false =>
    have hp' : (s.recast g h).pending = false := hp
    have hdec := decodeStep_follows hm hs
    cases hd : decodeStep s with
    | ok i t =>
      rw [hd] at hdec
      obtain ⟨ht, hd'⟩ := hdec
      rw [tick_decode hp hd, tick_decode hp' hd']
      exact exec_follows hm (s := t.setCur (some i)) ht i
    | raise trap t =>
      rw [hd] at hdec
      rcases hdec with hd' | he
      · rw [tick_raise hp hd, tick_raise hp' hd']
        exact .inl rfl
      · rw [tick_raise hp hd]
        exact .inr ⟨_, _, rfl, rfl, he⟩

omit hm in
/-- The tests of `run()` read no parameter and no memory (R163). -/
theorem suspend_recast (s : State) : suspend (s.recast g h) = mapNext (.recast g h) (suspend s) := by
  cases h₁ : s.fHalted with
  | true => simp [suspend, h₁, mapNext]; rfl
  | false =>
    cases h₂ : s.fAwaitIn with
    | true => simp [suspend, h₁, h₂, mapNext]; rfl
    | false =>
      cases h₃ : s.fHasOut with
      | false => simp [suspend, h₁, h₂, h₃, mapNext]; rfl
      | true =>
        cases h₄ : s.outReg with
        | none => simp [suspend, h₁, h₂, h₃, h₄, mapNext]
        | some v => simp [suspend, h₁, h₂, h₃, h₄, mapNext]; rfl

omit hm in
theorem endPass_recast (s : State) : endPass (s.recast g h) = mapNext (.recast g h) (endPass s) := by
  simp only [endPass, State.recast_fault]
  cases s.fault with
  | some r => rfl
  | none => exact suspend_recast s

omit hm in
/-- An excused fault of the tick is a fault of the step (R150). -/
theorem afterTick_follows {a a' : Answer} (ha : AnswerFollows (.recast g h) E a a') :
    AnswerFollows (.recast g h) E (afterTick a) (afterTick a') := by
  rcases ha with rfl | ⟨t, r, rfl, hf, he⟩
  · cases a with
    | next t => exact .inl (endPass_recast t)
    | fault r => exact .inl rfl
    | refused r => exact .inl rfl
  · have hend : afterTick (.next t) = .next (t.setRet none) := by simp only [afterTick, endPass, hf]
    exact .inr ⟨_, r, hend, hf, he⟩

/-- Every step commutes with the recast, up to an excused fault. -/
theorem step_follows {s : State} (hs : s.cfg = c) :
    AnswerFollows (.recast g h) E (step s) (step (s.recast g h)) := by
  cases hf : s.fault with
  | some r =>
    have hf' : (s.recast g h).fault = some r := hf
    rw [step_faulted hf, step_faulted hf']
    exact .inl rfl
  | none =>
    have hf' : (s.recast g h).fault = none := hf
    rw [step_eq hf, step_eq hf']
    exact afterTick_follows (tick_follows hm hs)

end

/-- The step of a machine without its backend is the step of the machine, seen without it (R49). -/
theorem step_forgetBackend (s : State) : step s.forgetBackend = mapNext State.forgetBackend (step s) := by
  rw [forgetBackend_eq_recast]
  rcases step_follows (mimics_forgetBackend s.cfg) (s := s) rfl with hstep | ⟨_, _, _, _, hfalse⟩
  · exact hstep
  · exact hfalse.elim

/-- Settles O50: both steps are, up to the backend, the step of one and the same machine without it. -/
theorem stepIgnoresBackend : Obligations.StepIgnoresBackend := by
  intro s t hst
  rw [← step_forgetBackend, ← step_forgetBackend, hst]

/-- Settles O52: a greater width is a recast whose only excused cause is `ArithOverflow`. -/
theorem stepAtGreaterWidthAgrees : Obligations.StepAtGreaterWidthAgrees := by
  intro s t w ho hw hstep hno
  rcases step_follows (mimics_withWidth ho hw) (s := s) rfl with hwide | ⟨u, r, hu, hf, hcause⟩
  · rw [withWidth_eq_recast, hwide, hstep]
    rfl
  · rw [hstep] at hu
    cases hu
    exact absurd hcause (hno r hf)

end Sys2Proof.Machine
end

section
/-! SUPPORT. The invariant of a machine (00_scope.md R9, 10_state.md R33, 60_exceptions.md R158) along one step: the
data clauses hold of every state a tick goes through, and after a tick without a fault every raised flag is the
one of the instruction in `cur`. -/

namespace Sys2Proof.Machine

/-! ## The data clauses -/

/-- The overlay clauses of `State.dataOk`, for a machine of configuration `c` and an image of `cap` Words. -/
structure Memory.Ok (c : Config) (cap : Nat) (m : Memory) : Prop where
  wf : m.wf = true
  fits : m.fits c.width c.memLimit = true
  dense : c.backend = .dense → m.covers cap = true
  sparse : c.backend = .sparse → m.len = cap

/-- The clauses of `State.dataOk` by name. -/
structure State.Data (s : State) : Prop where
  cfg : s.cfg.wf = true
  image : s.image.all s.cfg.width.fits = true
  overlay : s.overlay.Ok s.cfg s.image.length
  rb : s.cfg.width.fits s.rb = true
  inReg : regFits s.cfg.width s.inReg = true
  outReg : regFits s.cfg.width s.outReg = true
  cur : s.cur.all (Instr.wf s.cfg.width) = true

theorem dataOk_iff (s : State) : s.dataOk = true ↔ s.Data := by
  constructor
  · intro h
    simp only [State.dataOk, Bool.and_eq_true] at h
    obtain ⟨⟨⟨⟨⟨⟨⟨⟨hcfg, himage⟩, hwf⟩, hfits⟩, hlen⟩, hrb⟩, hin⟩, hout⟩, hcur⟩ := h
    refine ⟨hcfg, himage, ⟨hwf, hfits, fun hb => ?_, fun hb => ?_⟩, hrb, hin, hout, hcur⟩
    · simpa [hb] using hlen
    · simpa [hb] using hlen
  · rintro ⟨hcfg, himage, ⟨hwf, hfits, hdense, hsparse⟩, hrb, hin, hout, hcur⟩
    simp only [State.dataOk, Bool.and_eq_true]
    refine ⟨⟨⟨⟨⟨⟨⟨⟨hcfg, himage⟩, hwf⟩, hfits⟩, ?_⟩, hrb⟩, hin⟩, hout⟩, hcur⟩
    cases hb : s.cfg.backend with
    | dense => exact hdense hb
    | sparse => simpa using hsparse hb

theorem Memory.covers_iff {m : Memory} {cap : Nat} :
    m.covers cap = true ↔ cap ≤ m.len ∧ m.cells.all (fun c => decide (c.1 < m.len)) = true := by
  simp [Memory.covers]

/-- Slots below one length are below every greater one. -/
theorem all_lt_mono {l : List (Nat × Word)} {n k : Nat} (h : l.all (fun c => decide (c.1 < n)) = true)
    (hnk : n ≤ k) : l.all (fun c => decide (c.1 < k)) = true := by
  simp only [List.all_eq_true, decide_eq_true_eq] at h ⊢
  exact fun c hc => (h c hc).trans_le hnk

/-- A read sets no slot and lowers no length (R41, R42). -/
theorem Memory.Ok.read {c : Config} {cap : Nat} {m : Memory} (h : m.Ok c cap) (a : Nat) :
    (backendRead c.backend cap m a).2.Ok c cap where
  wf := backendRead_wf _ _ _ h.wf
  fits := by rw [Memory.fits, backendRead_cells]; exact h.fits
  dense hb := by
    obtain ⟨hcap, hcells⟩ := Memory.covers_iff.mp (h.dense hb)
    rw [Memory.covers_iff, backendRead_cells, backendRead_len, hb]
    exact ⟨le_max_of_le_left hcap, all_lt_mono hcells (le_max_left _ _)⟩
  sparse hb := by
    rw [backendRead_len, hb]
    exact h.sparse hb

/-- A write of a Word at a legal address sets one slot, below the new dense length (R41, R42). -/
theorem Memory.Ok.write {c : Config} {cap : Nat} {m : Memory} (h : m.Ok c cap) {a : Nat} {v : Word}
    (ha : a < c.memLimit) (hv : c.width.fits v = true) : (backendWrite c.backend m a v).Ok c cap where
  wf := backendWrite_wf _ _ _ h.wf
  fits := by
    rw [Memory.fits, backendWrite_cells]
    exact all_put _ (by simp [hv, ha]) h.fits
  dense hb := by
    obtain ⟨hcap, hcells⟩ := Memory.covers_iff.mp (h.dense hb)
    rw [Memory.covers_iff, backendWrite_cells, backendWrite_len, hb]
    exact ⟨le_max_of_le_left hcap, all_put _ (by simp) (all_lt_mono hcells (le_max_left _ _))⟩
  sparse hb := by
    rw [backendWrite_len, hb]
    exact h.sparse hb

theorem State.Data.touch {s : State} (hs : s.Data) (a : Nat) : (s.touch a).Data :=
  { hs with overlay := hs.overlay.read a }

theorem State.Data.stored {s : State} (hs : s.Data) {a : Nat} {v : Word} (ha : a < s.cfg.memLimit)
    (hv : s.cfg.width.fits v = true) : (s.stored a v).Data :=
  { hs with overlay := hs.overlay.write ha hv }

/-- Every address reads as a Word: a set slot, a Word of the image, or zero (R47). -/
theorem State.Data.wordAt_fits {s : State} (hs : s.Data) (a : Nat) : s.cfg.width.fits (s.wordAt a) = true := by
  rw [wordAt_eq]
  cases hslot : cellsGet s.overlay.cells a with
  | some v =>
    have hv := all_get _ hs.overlay.fits hslot
    simp only [Bool.and_eq_true] at hv
    exact hv.1
  | none =>
    rw [Option.getD_none, List.getD_eq_getElem?_getD]
    cases himage : s.image[a]? with
    | none => exact Width.fits_zero _
    | some v => exact List.all_eq_true.mp hs.image v (List.mem_of_getElem? himage)

/-! ## Results whose states keep the data clauses -/

/-- The result leaves a value and a state with `P`, or a trap in a state that keeps the data clauses. -/
def Res.Keeps {α : Type} (P : α → State → Prop) : Res α → Prop
  | .ok v s => P v s
  | .raise _ s => s.Data

theorem Res.Keeps.bind {α β : Type} {P : α → State → Prop} {P' : β → State → Prop} {r : Res α}
    {k : α → State → Res β} (hr : r.Keeps P) (hk : ∀ v t, P v t → (k v t).Keeps P') : (r.bind k).Keeps P' := by
  cases r with
  | ok v s => exact hk v s hr
  | raise t s => exact hr

theorem Res.Keeps.mono {α : Type} {P P' : α → State → Prop} {r : Res α} (hr : r.Keeps P)
    (h : ∀ v t, P v t → P' v t) : r.Keeps P' := by
  cases r with
  | ok v s => exact h v s hr
  | raise t s => exact hr

/-- `t` keeps the data clauses and is `s` with another overlay and `pc` at `p`. -/
structure State.MovesTo (s : State) (p : Nat) (t : State) : Prop where
  data : t.Data
  frame : ∃ m, t = (s.setOverlay m).setPc p

theorem State.MovesTo.refl {s : State} (hs : s.Data) : s.MovesTo s.pc s := ⟨hs, s.overlay, rfl⟩

theorem State.MovesTo.trans {s t u : State} {p q : Nat} (ht : s.MovesTo p t) (hu : t.MovesTo q u) :
    s.MovesTo q u := by
  obtain ⟨m, rfl⟩ := ht.frame
  obtain ⟨n, rfl⟩ := hu.frame
  exact ⟨hu.data, n, rfl⟩

theorem State.MovesTo.setPc {s t : State} {p : Nat} (ht : s.MovesTo p t) (q : Nat) : s.MovesTo q (t.setPc q) := by
  obtain ⟨m, rfl⟩ := ht.frame
  exact ⟨{ ht.data with }, m, rfl⟩

theorem State.MovesTo.pc_eq {s t : State} {p : Nat} (ht : s.MovesTo p t) : t.pc = p := by
  obtain ⟨m, rfl⟩ := ht.frame
  rfl

theorem State.MovesTo.cfg_eq {s t : State} {p : Nat} (ht : s.MovesTo p t) : t.cfg = s.cfg := by
  obtain ⟨m, rfl⟩ := ht.frame
  rfl

/-- A move touches no flag and no output register. -/
theorem State.MovesTo.flags_eq {s t : State} {p : Nat} (ht : s.MovesTo p t) :
    t.fAwaitIn = s.fAwaitIn ∧ t.fHasOut = s.fHasOut ∧ t.fHalted = s.fHalted ∧ t.outReg = s.outReg := by
  obtain ⟨m, rfl⟩ := ht.frame
  exact ⟨rfl, rfl, rfl, rfl⟩

theorem liftTrap_keeps {α : Type} {e : Except Trap α} {s : State} (hs : s.Data) :
    (liftTrap e s).Keeps fun v t => e = .ok v ∧ t = s := by
  cases e with
  | ok v => exact ⟨rfl, rfl⟩
  | error t => exact hs

theorem memRead_keeps {s : State} (hs : s.Data) (a : Nat) :
    (memRead a s).Keeps fun v t => s.cfg.width.fits v = true ∧ s.MovesTo s.pc t := by
  by_cases ha : a < s.cfg.memLimit
  · rw [memRead_ok ha]
    exact ⟨hs.wordAt_fits a, hs.touch a, (s.touch a).overlay, rfl⟩
  · rw [memRead_raise (Nat.le_of_not_lt ha)]
    exact hs

theorem memWrite_keeps {s : State} (hs : s.Data) (a : Nat) {v : Word} (hv : s.cfg.width.fits v = true) :
    (memWrite a v s).Keeps fun _ t => s.MovesTo s.pc t := by
  by_cases ha : a < s.cfg.memLimit
  · rw [memWrite_ok ha]
    exact ⟨hs.stored ha hv, (s.stored a v).overlay, rfl⟩
  · rw [memWrite_raise (Nat.le_of_not_lt ha)]
    exact hs

/-- Reading a well-formed operand gives a Word (R46). -/
theorem readOp_keeps {s : State} (hs : s.Data) {o : Operand} (ho : o.wf s.cfg.width = true) :
    (readOp o s).Keeps fun v t => s.cfg.width.fits v = true ∧ s.MovesTo s.pc t := by
  cases o with
  | immediate w => exact ⟨ho, .refl hs⟩
  | positional w =>
    refine (liftTrap_keeps hs).bind ?_
    rintro a _ ⟨-, rfl⟩
    exact memRead_keeps hs a
  | relative w =>
    refine (liftTrap_keeps hs).bind ?_
    rintro a _ ⟨-, rfl⟩
    exact memRead_keeps hs a

theorem writeOp_keeps {s : State} (hs : s.Data) (o : Operand) {v : Word} (hv : s.cfg.width.fits v = true) :
    (writeOp o v s).Keeps fun _ t => s.MovesTo s.pc t := by
  cases o with
  | immediate w => exact .refl hs
  | positional w =>
    refine (liftTrap_keeps hs).bind ?_
    rintro a _ ⟨-, rfl⟩
    exact memWrite_keeps hs a hv
  | relative w =>
    refine (liftTrap_keeps hs).bind ?_
    rintro a _ ⟨-, rfl⟩
    exact memWrite_keeps hs a hv

/-- Two operands read one after the other are two Words. -/
theorem readTwo_keeps {β : Type} {P : β → State → Prop} {s : State} (hs : s.Data) {a b : Operand}
    (ha : a.wf s.cfg.width = true) (hb : b.wf s.cfg.width = true) {k : Word → Word → State → Res β}
    (hk : ∀ x y t, s.MovesTo s.pc t → (k x y t).Keeps P) :
    ((readOp a s).bind fun x s₁ => (readOp b s₁).bind fun y s₂ => k x y s₂).Keeps P := by
  refine (readOp_keeps hs ha).bind fun x s₁ ⟨_, h₁⟩ => ?_
  refine (readOp_keeps h₁.data (h₁.cfg_eq ▸ hb)).bind fun y s₂ ⟨_, h₂⟩ => ?_
  exact hk x y s₂ (h₁.pc_eq ▸ h₁.trans h₂)

theorem twoSources_keeps {s : State} (hs : s.Data) {f : Config → Int → Int → Except Trap Word}
    (hf : ∀ x y r, f s.cfg x y = .ok r → s.cfg.width.fits r = true) {a b : Operand} (c : Operand)
    (ha : a.wf s.cfg.width = true) (hb : b.wf s.cfg.width = true) :
    (twoSources f a b c s).Keeps fun _ t => s.MovesTo s.pc t := by
  refine readTwo_keeps hs ha hb fun x y t ht => (liftTrap_keeps ht.data).bind ?_
  rintro r _ ⟨hr, rfl⟩
  rw [ht.cfg_eq] at hr
  refine (writeOp_keeps ht.data c (ht.cfg_eq ▸ hf x y r hr)).mono fun _ u hu => ?_
  exact ht.pc_eq ▸ ht.trans hu

theorem jumpWhen_keeps {s : State} (hs : s.Data) (taken : Int → Bool) {a b : Operand}
    (ha : a.wf s.cfg.width = true) (hb : b.wf s.cfg.width = true) :
    (jumpWhen taken a b s).Keeps fun _ t => ∃ p, s.MovesTo p t := by
  refine readTwo_keeps hs ha hb fun x y t ht => ?_
  cases taken x with
  | false => exact ⟨_, ht⟩
  | true =>
    refine (liftTrap_keeps ht.data).bind ?_
    rintro p _ ⟨-, rfl⟩
    exact ⟨p, ht.setPc p⟩

/-! ## The flags and the instruction in `cur` -/

/-- Every raised flag is the decode-time flag of the instruction in `cur` (R88, R160), an awaited input has `pc`
behind its `In`, and an output Word is held under its flag alone (R163). -/
structure State.FlagsMatchCur (s : State) : Prop where
  await : s.fAwaitIn = true → ∃ a, s.cur = some (.inp a) ∧ 2 ≤ s.pc
  hasOut : s.fHasOut = true → ∃ a, s.cur = some (.out a)
  halted : s.fHalted = true → s.cur = some .halt
  outReg : s.outReg ≠ none → s.fHasOut = true

/-- The flag clauses of the invariant by name. -/
theorem flagsOk_iff (s : State) : s.flagsOk = true ↔
    s.fHasOut = false ∧ s.outReg = none ∧ s.fAwaitIn = (s.ret == some .input) ∧
    s.fHalted = (s.ret == some .halt) ∧ s.FlagsMatchCur := by
  constructor
  · intro h
    simp only [State.flagsOk, Bool.and_eq_true] at h
    obtain ⟨⟨⟨⟨⟨hout, hreg⟩, hinput⟩, hhalt⟩, hawait⟩, hhalted⟩ := h
    have hout' : s.fHasOut = false := by simpa using hout
    have hreg' : s.outReg = none := by simpa using hreg
    refine ⟨hout', hreg', by simpa using hinput, by simpa using hhalt, fun ha => ?_, ?_, fun hh => ?_, ?_⟩
    · rw [ha] at hawait
      cases hc : s.cur with
      | none => simp [hc] at hawait
      | some i =>
        cases i with
        | inp a => exact ⟨a, rfl, by simpa [hc] using hawait⟩
        | _ => simp [hc] at hawait
    · simp [hout']
    · simpa [hh] using hhalted
    · simp [hreg']
  · rintro ⟨hout, hreg, hinput, hhalt, hmatch⟩
    simp only [State.flagsOk, Bool.and_eq_true]
    refine ⟨⟨⟨⟨⟨by simp [hout], by simp [hreg]⟩, by simp [← hinput]⟩, by simp [← hhalt]⟩, ?_⟩, ?_⟩
    · cases ha : s.fAwaitIn with
      | false => rfl
      | true =>
        obtain ⟨a, hc, hpc⟩ := hmatch.await ha
        simp [hc, hpc]
    · cases hh : s.fHalted with
      | false => rfl
      | true => simp [hmatch.halted hh]

/-- A machine that moves without losing the place behind a pending `In` keeps its flags' meaning. -/
theorem State.FlagsMatchCur.move {s t : State} {p : Nat} (h : s.FlagsMatchCur) (ht : s.MovesTo p t)
    (hp : s.fAwaitIn = true → 2 ≤ p) : t.FlagsMatchCur := by
  obtain ⟨m, rfl⟩ := ht.frame
  exact { h with await := fun ha => (h.await ha).imp fun _ hc => ⟨hc.1, hp ha⟩ }

theorem State.FlagsMatchCur.stay {s t : State} (h : s.FlagsMatchCur) (ht : s.MovesTo s.pc t) : t.FlagsMatchCur :=
  h.move ht fun ha => by
    obtain ⟨_, _, hpc⟩ := h.await ha
    exact hpc

theorem State.FlagsMatchCur.outReg_none {s : State} (h : s.FlagsMatchCur) (ho : s.fHasOut = false) :
    s.outReg = none := by
  by_contra hr
  exact Bool.false_ne_true (ho.symm.trans (h.outReg hr))

/-- An instruction other than `Out` has no output flag beside it. -/
theorem State.FlagsMatchCur.not_hasOut {s : State} (h : s.FlagsMatchCur) (hc : ∀ a, s.cur ≠ some (.out a)) :
    s.fHasOut = false := by
  by_contra ho
  obtain ⟨a, ha⟩ := h.hasOut (Bool.eq_true_of_not_eq_false ho)
  exact hc a ha

/-- An instruction other than `In` has no input flag beside it. -/
theorem State.FlagsMatchCur.not_await {s : State} (h : s.FlagsMatchCur) (hc : ∀ a, s.cur ≠ some (.inp a)) :
    s.fAwaitIn = false := by
  by_contra hw
  obtain ⟨a, ha, -⟩ := h.await (Bool.eq_true_of_not_eq_false hw)
  exact hc a ha

/-- What the end of a pass makes of matching flags (R163): those of the invariant. -/
theorem endPass_flagsOk {u t : State} (h : u.FlagsMatchCur) (hend : endPass u = .next t) (hf : t.fault = none) :
    t.flagsOk = true := by
  rw [flagsOk_iff]
  rcases endPass_cases hend with ⟨hu, rfl⟩ | ⟨-, hhalt, rfl⟩ | ⟨-, hhalt, hawait, rfl⟩ |
    ⟨v, -, hhalt, hawait, hout, hreg, rfl⟩ | ⟨-, hhalt, hawait, hout, rfl⟩
  · exact absurd hf hu
  · have hcur := h.halted hhalt
    have ho := h.not_hasOut (by simp [hcur])
    exact ⟨ho, h.outReg_none ho, h.not_await (by simp [hcur]), hhalt, { h with }⟩
  · obtain ⟨a, hcur, -⟩ := h.await hawait
    have ho := h.not_hasOut (by simp [hcur])
    exact ⟨ho, h.outReg_none ho, hawait, hhalt, { h with }⟩
  · exact ⟨rfl, rfl, hawait, hhalt, { h with hasOut := nofun, outReg := fun hn => absurd rfl hn }⟩
  · exact ⟨hout, h.outReg_none hout, hawait, hhalt, { h with }⟩

theorem endPass_data {u t : State} (h : u.Data) (hend : endPass u = .next t) : t.Data := by
  rcases endPass_cases hend with ⟨-, rfl⟩ | ⟨-, -, rfl⟩ | ⟨-, -, -, rfl⟩ | ⟨v, -, -, -, -, -, rfl⟩ |
    ⟨-, -, -, -, rfl⟩
  · exact { h with }
  · exact { h with }
  · exact { h with }
  · exact { h with outReg := rfl }
  · exact { h with }

/-! ## Executing an instruction -/

/-- `s` is about to execute `i`, decoded in this tick or pending (R160). -/
structure State.Executing (i : Instr) (s : State) : Prop where
  data : s.Data
  cur : s.cur = some i
  flags : s.FlagsMatchCur
  noOutput : s.outReg = none
  outFlag : ∀ a, i = .out a → s.fHasOut = true

theorem State.Executing.wf {i : Instr} {s : State} (h : s.Executing i) : i.wf s.cfg.width = true := by
  simpa [h.cur] using h.data.cur

/-- What a tick keeps: the data clauses and, without a fault, the meaning of the flags. -/
def State.Ticked (s : State) : Prop := s.Data ∧ (s.fault = none → s.FlagsMatchCur)

theorem takeFault_ticked {s : State} (hs : s.Data) (loc : Option Nat) (t : Trap) : (takeFault loc t s).Ticked :=
  ⟨{ hs with }, nofun⟩

theorem conclude_ticked {i : Instr} {s v : State} {r : Res Unit} (h : conclude i s r = .next v)
    (hr : r.Keeps fun _ t => t.Data ∧ t.FlagsMatchCur) : v.Ticked := by
  cases r with
  | ok x t =>
    cases h
    exact ⟨hr.1, fun _ => hr.2⟩
  | raise trap t =>
    cases h
    exact takeFault_ticked hr _ _

/-- An instruction that ends where it stands ends with the flags it began with. -/
theorem conclude_stay {i j : Instr} {s v : State} {r : Res Unit} (hs : s.Executing i)
    (h : conclude j s r = .next v) (hr : r.Keeps fun _ t => s.MovesTo s.pc t) : v.Ticked :=
  conclude_ticked h (hr.mono fun _ _ ht => ⟨ht.data, hs.flags.stay ht⟩)

theorem twoSources_ticked {i j : Instr} {s v : State} {f : Config → Int → Int → Except Trap Word} {a b c : Operand}
    (hs : s.Executing i) (h : conclude j s (twoSources f a b c s) = .next v)
    (hi : i.wf s.cfg.width = (a.wf s.cfg.width && b.wf s.cfg.width && c.wf s.cfg.width))
    (hf : ∀ x y r, f s.cfg x y = .ok r → s.cfg.width.fits r = true) : v.Ticked := by
  have hwf := hs.wf
  simp only [hi, Bool.and_eq_true] at hwf
  obtain ⟨⟨ha, hb⟩, -⟩ := hwf
  exact conclude_stay hs h (twoSources_keeps hs.data hf c ha hb)

theorem jumpWhen_ticked {i j : Instr} {s v : State} {taken : Int → Bool} {a b : Operand} (hs : s.Executing i)
    (h : conclude j s (jumpWhen taken a b s) = .next v)
    (hi : i.wf s.cfg.width = (a.wf s.cfg.width && b.wf s.cfg.width)) (hin : ∀ o, i ≠ .inp o) : v.Ticked := by
  have hwf := hs.wf
  simp only [hi, Bool.and_eq_true] at hwf
  obtain ⟨ha, hb⟩ := hwf
  refine conclude_ticked h ((jumpWhen_keeps hs.data taken ha hb).mono fun _ t ⟨p, ht⟩ => ?_)
  refine ⟨ht.data, hs.flags.move ht fun hawait => ?_⟩
  obtain ⟨o, ho, -⟩ := hs.flags.await hawait
  exact absurd (Option.some.inj (hs.cur.symm.trans ho)) (hin o)

theorem execIn_ticked {a : Operand} {s v : State} (hs : s.Executing (.inp a)) (h : execIn a s = .next v) :
    v.Ticked := by
  cases hin : s.inReg with
  | none =>
    simp only [execIn, hin] at h
    cases h
    exact ⟨hs.data, fun _ => hs.flags⟩
  | some x =>
    simp only [execIn, hin] at h
    have hx : s.cfg.width.fits x = true := by simpa [regFits, hin] using hs.data.inReg
    have hdata : ((s.setInReg none).setAwaitIn false).Data := { hs.data with inReg := rfl }
    have hflags : ((s.setInReg none).setAwaitIn false).FlagsMatchCur := { hs.flags with await := nofun }
    exact conclude_ticked h ((writeOp_keeps hdata a hx).mono fun _ _ ht => ⟨ht.data, hflags.stay ht⟩)

theorem execOut_ticked {a : Operand} {s v : State} (hs : s.Executing (.out a)) (h : execOut a s = .next v) :
    v.Ticked := by
  refine conclude_ticked h ((readOp_keeps hs.data hs.wf).bind fun x t ⟨hx, ht⟩ => ?_)
  obtain ⟨-, hflag, -, -⟩ := ht.flags_eq
  have hout : t.fHasOut = true := hflag.trans (hs.outFlag a rfl)
  rw [← ht.cfg_eq] at hx
  exact ⟨{ ht.data with outReg := hx }, { hs.flags.stay ht with outReg := fun _ => hout }⟩

theorem execAdjustRelativeBase_ticked {a : Operand} {s v : State} (hs : s.Executing (.adjustRelativeBase a))
    (h : execAdjustRelativeBase a s = .next v) : v.Ticked := by
  refine conclude_ticked h ((readOp_keeps hs.data hs.wf).bind fun x t ⟨_, ht⟩ => (liftTrap_keeps ht.data).bind ?_)
  rintro r _ ⟨hr, rfl⟩
  exact ⟨{ ht.data with rb := narrow_ok_fits hr }, { hs.flags.stay ht with }⟩

theorem execHalt_ticked {s v : State} (hs : s.Executing .halt) (h : execHalt s = .next v) : v.Ticked := by
  cases h
  exact ⟨{ hs.data with }, fun _ => { hs.flags with halted := fun _ => hs.cur }⟩

theorem exec_ticked {i : Instr} {s v : State} (hs : s.Executing i) (h : exec i s = .next v) : v.Ticked := by
  cases i with
  | add a b c => exact twoSources_ticked hs h rfl fun _ _ _ => narrow_ok_fits
  | mul a b c => exact twoSources_ticked hs h rfl fun _ _ _ => narrow_ok_fits
  | lessThan a b c => exact twoSources_ticked hs h rfl fun _ _ _ hr => Except.ok.inj hr ▸ wordOfBool_fits _ _
  | equal a b c => exact twoSources_ticked hs h rfl fun _ _ _ hr => Except.ok.inj hr ▸ wordOfBool_fits _ _
  | inp a => exact execIn_ticked hs h
  | out a => exact execOut_ticked hs h
  | jumpIfTrue a b => exact jumpWhen_ticked hs h rfl nofun
  | jumpIfFalse a b => exact jumpWhen_ticked hs h rfl nofun
  | adjustRelativeBase a => exact execAdjustRelativeBase_ticked hs h
  | halt => exact execHalt_ticked hs h

/-! ## Decoding an instruction -/

theorem fetchWord_keeps {s : State} (hs : s.Data) :
    (fetchWord s).Keeps fun v t => s.cfg.width.fits v = true ∧ s.MovesTo (s.pc + 1) t := by
  refine (memRead_keeps hs s.pc).bind fun v t ⟨hv, ht⟩ => ?_
  rw [ht.pc_eq]
  exact ⟨hv, ht.setPc _⟩

/-- Fetching one Word more after `s` has moved to `p`. -/
theorem State.MovesTo.fetch_keeps {s t : State} {p : Nat} (ht : s.MovesTo p t) :
    (fetchWord t).Keeps fun v u => s.cfg.width.fits v = true ∧ s.MovesTo (p + 1) u := by
  refine (fetchWord_keeps ht.data).mono fun v u ⟨hv, hu⟩ => ?_
  rw [ht.cfg_eq] at hv
  rw [ht.pc_eq] at hu
  exact ⟨hv, ht.trans hu⟩

theorem decodeOperand_wf (m : Mode) (w : Width) (v : Word) : (decodeOperand m v).wf w = w.fits v := by
  rw [Operand.wf, raw_decodeOperand]

/-- The parameters fetched make a well-formed instruction (R77, R84). -/
theorem fetchParams_keeps {s : State} (hs : s.Data) (hd : Head) :
    (fetchParams hd s).Keeps fun i t => i.wf s.cfg.width = true ∧ s.MovesTo (s.pc + i.operands.length) t := by
  cases hd with
  | p0 => exact ⟨rfl, .refl hs⟩
  | p1 op m₁ =>
    refine (fetchWord_keeps hs).bind fun v₁ s₁ ⟨hv₁, h₁⟩ => ?_
    cases op <;> exact ⟨by simp [Op1.build, Instr.wf, decodeOperand_wf, hv₁], h₁⟩
  | p2 op m₁ m₂ =>
    refine (fetchWord_keeps hs).bind fun v₁ s₁ ⟨hv₁, h₁⟩ => ?_
    refine h₁.fetch_keeps.bind fun v₂ s₂ ⟨hv₂, h₂⟩ => ?_
    cases op <;> exact ⟨by simp [Op2.build, Instr.wf, decodeOperand_wf, hv₁, hv₂], h₂⟩
  | p3 op m₁ m₂ m₃ =>
    refine (fetchWord_keeps hs).bind fun v₁ s₁ ⟨hv₁, h₁⟩ => ?_
    refine h₁.fetch_keeps.bind fun v₂ s₂ ⟨hv₂, h₂⟩ => ?_
    refine h₂.fetch_keeps.bind fun v₃ s₃ ⟨hv₃, h₃⟩ => ?_
    cases op <;> exact ⟨by simp [Op3.build, Instr.wf, decodeOperand_wf, hv₁, hv₂, hv₃], h₃⟩

/-- Decode moves behind a well-formed instruction and raises its flag (R84, R88). -/
theorem decodeStep_keeps {s : State} (hs : s.Data) :
    (decodeStep s).Keeps fun i t => i.wf s.cfg.width = true ∧
      ∃ u, s.MovesTo (s.pc + 1 + i.operands.length) u ∧ t = decodeFlags i u := by
  refine (fetchWord_keeps hs).bind fun w s₁ ⟨_, h₁⟩ => (liftTrap_keeps h₁.data).bind ?_
  rintro hd _ ⟨-, rfl⟩
  refine (fetchParams_keeps h₁.data hd).bind fun i u ⟨hi, hu⟩ => ?_
  rw [h₁.cfg_eq] at hi
  rw [h₁.pc_eq] at hu
  exact ⟨hi, u, h₁.trans hu, rfl⟩

@[simp] theorem decodeFlags_cfg (i : Instr) (s : State) : (decodeFlags i s).cfg = s.cfg := by cases i <;> rfl

@[simp] theorem decodeFlags_pc (i : Instr) (s : State) : (decodeFlags i s).pc = s.pc := by cases i <;> rfl

@[simp] theorem decodeFlags_outReg (i : Instr) (s : State) : (decodeFlags i s).outReg = s.outReg := by
  cases i <;> rfl

theorem decodeFlags_data {s : State} (hs : s.Data) (i : Instr) : (decodeFlags i s).Data := by
  cases i <;> exact { hs with }

/-- Decode raises `fAwaitIn` for `In` alone (R88). -/
theorem decodeFlags_await {i : Instr} {s : State} (h0 : s.fAwaitIn = false)
    (h : (decodeFlags i s).fAwaitIn = true) : ∃ a, i = .inp a := by
  cases i with
  | inp a => exact ⟨a, rfl⟩
  | _ => exact absurd (h0.symm.trans h) Bool.false_ne_true

/-- Decode raises `fHasOut` for `Out` alone (R88). -/
theorem decodeFlags_hasOut {i : Instr} {s : State} (h0 : s.fHasOut = false)
    (h : (decodeFlags i s).fHasOut = true) : ∃ a, i = .out a := by
  cases i with
  | out a => exact ⟨a, rfl⟩
  | _ => exact absurd (h0.symm.trans h) Bool.false_ne_true

/-- Decode raises `fHalted` for `Halt` alone (R88). -/
theorem decodeFlags_halted {i : Instr} {s : State} (h0 : s.fHalted = false)
    (h : (decodeFlags i s).fHalted = true) : i = .halt := by
  cases i with
  | halt => rfl
  | _ => exact absurd (h0.symm.trans h) Bool.false_ne_true

/-- With no flag pending, the decoded instruction is ready to execute (R160). -/
theorem executing_of_decoded {s u : State} {i : Instr} (hflags : s.flagsOk = true) (hp : s.pending = false)
    (hi : i.wf s.cfg.width = true) (hu : s.MovesTo (s.pc + 1 + i.operands.length) u) :
    ((decodeFlags i u).setCur (some i)).Executing i := by
  obtain ⟨-, hreg, -⟩ := (flagsOk_iff s).mp hflags
  simp only [State.pending, Bool.or_eq_false_iff] at hp
  obtain ⟨⟨hawait, hout⟩, hhalted⟩ := hp
  have hdata : (decodeFlags i u).Data := decodeFlags_data hu.data i
  have hcur : (some i).all (Instr.wf (decodeFlags i u).cfg.width) = true := by
    rw [decodeFlags_cfg, hu.cfg_eq]; exact hi
  have hpc : (decodeFlags i u).pc = s.pc + 1 + i.operands.length := by rw [decodeFlags_pc, hu.pc_eq]
  obtain ⟨hawait', hout', hhalted', hreg'⟩ := hu.flags_eq
  have hnone : (decodeFlags i u).outReg = none := (decodeFlags_outReg i u).trans (hreg'.trans hreg)
  refine ⟨{ hdata with cur := hcur }, rfl, ⟨fun h => ?_, fun h => ?_, fun h => ?_, ?_⟩, hnone, ?_⟩
  · obtain ⟨a, rfl⟩ := decodeFlags_await (hawait'.trans hawait) h
    simp only [Instr.operands, List.length_singleton] at hpc
    exact ⟨a, rfl, by rw [State.setCur_pc, hpc]; omega⟩
  · obtain ⟨a, rfl⟩ := decodeFlags_hasOut (hout'.trans hout) h
    exact ⟨a, rfl⟩
  · exact congrArg some (decodeFlags_halted (hhalted'.trans hhalted) h)
  · exact fun h => absurd hnone h
  · rintro a rfl
    rfl

/-- With a flag pending, the instruction in `cur` is ready to execute again (R160). -/
theorem executing_of_pending {s : State} (hs : s.Data) (hflags : s.flagsOk = true) (hp : s.pending = true) :
    ∃ i, s.cur = some i ∧ s.Executing i := by
  obtain ⟨hout, hreg, -, -, hmatch⟩ := (flagsOk_iff s).mp hflags
  have hio : s.fAwaitIn = true ∨ s.fHalted = true := by simpa [State.pending, hout] using hp
  rcases hio with hawait | hhalted
  · obtain ⟨a, hc, -⟩ := hmatch.await hawait
    exact ⟨.inp a, hc, hs, hc, hmatch, hreg, nofun⟩
  · have hc := hmatch.halted hhalted
    exact ⟨.halt, hc, hs, hc, hmatch, hreg, nofun⟩

/-- What a tick keeps of a machine between two steps (R160). -/
theorem tick_ticked {s u : State} (hs : s.Data) (hflags : s.flagsOk = true) (h : tick s = .next u) : u.Ticked := by
  cases hp : s.pending with
  | true =>
    obtain ⟨i, hc, hexec⟩ := executing_of_pending hs hflags hp
    rw [tick_pending hp hc] at h
    exact exec_ticked hexec h
  | false =>
    have hdec := decodeStep_keeps hs
    cases hd : decodeStep s with
    | ok i t =>
      rw [hd] at hdec
      obtain ⟨hi, v, hv, rfl⟩ := hdec
      rw [tick_decode hp hd] at h
      exact exec_ticked (executing_of_decoded hflags hp hi hv) h
    | raise trap t =>
      rw [hd] at hdec
      rw [tick_raise hp hd] at h
      cases h
      exact takeFault_ticked hdec _ _

/-- Settles O33: a tick keeps the data clauses and the meaning of the flags, and the end of the pass turns the
latter into the flag clauses of the invariant. -/
theorem stepKeepsInvariant : Obligations.StepKeepsInvariant := by
  rintro s t ⟨hdata, hflags⟩ hstep
  obtain ⟨hf, u, htick, hend⟩ := step_next_inv hstep
  obtain ⟨hu, hmatch⟩ := tick_ticked ((dataOk_iff s).mp hdata) (hflags hf) htick
  refine ⟨(dataOk_iff t).mpr (endPass_data hu hend), fun ht => ?_⟩
  obtain ⟨-, -, -, -, -, -, -, -, -, hfault⟩ := endPass_frame hend
  exact endPass_flagsOk (hmatch (hfault.symm.trans ht)) hend ht

end Sys2Proof.Machine
end

section
/-! SUPPORT. 10_state.md R21: the canonical form of the overlay, in which what every address reads as determines the
data. -/

namespace Sys2Proof.Machine

/-- A list that rises from above `d` sets no address up to `d`. -/
theorem cellsGet_of_risingFrom {l : List (Nat × Word)} {d a : Nat} (h : risingFrom l d = true) (ha : a ≤ d) :
    cellsGet l a = none := by
  induction l generalizing d with
  | nil => rfl
  | cons c r ih =>
    obtain ⟨b, w⟩ := c
    simp only [risingFrom, Bool.and_eq_true, decide_eq_true_eq] at h
    obtain ⟨hdb, hr⟩ := h
    rw [cellsGet, if_neg (by omega)]
    exact ih hr (by omega)

/-- The canonical form of a longer list is that of its tail, above its first address. -/
theorem wf_cons {b n : Nat} {w : Word} {r : List (Nat × Word)} :
    Memory.wf { cells := (b, w) :: r, len := n } = risingFrom r b := rfl

/-- The tail of a canonical list is canonical. -/
theorem wf_of_risingFrom {r : List (Nat × Word)} {b : Nat} (n : Nat) (h : risingFrom r b = true) :
    Memory.wf { cells := r, len := n } = true := by
  cases r with
  | nil => rfl
  | cons c q =>
    simp only [risingFrom, Bool.and_eq_true] at h
    exact h.2

/-- A canonical list sets no address below its first one. -/
theorem cellsGet_below_first {r : List (Nat × Word)} {b a : Nat} {w : Word} (h : risingFrom r b = true)
    (ha : a < b) : cellsGet ((b, w) :: r) a = none := by
  rw [cellsGet, if_neg (by omega)]
  exact cellsGet_of_risingFrom h ha.le

theorem cellsGet_first (r : List (Nat × Word)) (b : Nat) (w : Word) : cellsGet ((b, w) :: r) b = some w := by
  simp [cellsGet]

/-- Canonical lists in which every address reads the same have the same first pair: an address below the other
list's first one would be unset there. -/
theorem first_eq_of_cellsGet_eq {r q : List (Nat × Word)} {b d : Nat} {w u : Word} (hr : risingFrom r b = true)
    (hq : risingFrom q d = true) (h : ∀ a, cellsGet ((b, w) :: r) a = cellsGet ((d, u) :: q) a) :
    b = d ∧ w = u := by
  have hb := h b
  have hd := h d
  rw [cellsGet_first] at hb hd
  rcases Nat.lt_trichotomy b d with hlt | rfl | hlt
  · rw [cellsGet_below_first hq hlt] at hb
    exact absurd hb (Option.some_ne_none w)
  · rw [cellsGet_first] at hb
    exact ⟨rfl, Option.some.inj hb⟩
  · rw [cellsGet_below_first hr hlt] at hd
    exact absurd hd.symm (Option.some_ne_none u)

/-- Lists in the canonical form are determined by what every address reads as (R21). -/
theorem cells_eq_of_cellsGet_eq {l k : List (Nat × Word)} {n : Nat} (hl : Memory.wf { cells := l, len := n } = true)
    (hk : Memory.wf { cells := k, len := n } = true) (h : ∀ a, cellsGet l a = cellsGet k a) : l = k := by
  induction l generalizing k with
  | nil =>
    cases k with
    | nil => rfl
    | cons c q => exact absurd ((h c.1).trans (cellsGet_first q c.1 c.2)) nofun
  | cons c r ih =>
    cases k with
    | nil => exact absurd ((h c.1).symm.trans (cellsGet_first r c.1 c.2)) nofun
    | cons e q =>
      obtain ⟨b, w⟩ := c
      obtain ⟨d, u⟩ := e
      rw [wf_cons] at hl hk
      obtain ⟨rfl, rfl⟩ := first_eq_of_cellsGet_eq hl hk h
      have htail (a : Nat) : cellsGet r a = cellsGet q a := by
        by_cases ha : b = a
        · rw [cellsGet_of_risingFrom hl ha.ge, cellsGet_of_risingFrom hk ha.ge]
        · simpa [cellsGet, ha] using h a
      rw [ih (wf_of_risingFrom n hl) (wf_of_risingFrom n hk) htail]

/-- Settles O14: each backend operation keeps the canonical form, and in it the cells are determined by what the
addresses read as. -/
theorem overlayCanonicalFormKept : Obligations.OverlayCanonicalFormKept := by
  refine ⟨fun b cap m a v h => ⟨backendRead_wf b cap a h, backendWrite_wf b a v h, backendReset_wf b cap m⟩, ?_⟩
  rintro ⟨l, n⟩ ⟨k, _⟩ hl hk rfl hget
  rw [cells_eq_of_cellsGet_eq hl hk hget]

end Sys2Proof.Machine
end

section
/-! SUPPORT. 10_state.md R33: when every raised flag is that of the instruction in `cur`, at most one is raised. -/

namespace Sys2Proof.Machine

/-- `cur` is one instruction, so no two flags match it. -/
theorem State.FlagsMatchCur.oneFlag {s : State} (h : s.FlagsMatchCur) : s.oneFlag = true := by
  cases hhalt : s.fHalted with
  | true =>
    have hcur := h.halted hhalt
    simp [State.oneFlag, h.not_await (by simp [hcur]), h.not_hasOut (by simp [hcur])]
  | false =>
    cases hawait : s.fAwaitIn with
    | true =>
      obtain ⟨a, hcur, -⟩ := h.await hawait
      simp [State.oneFlag, hhalt, h.not_hasOut (by simp [hcur])]
    | false => simp [State.oneFlag, hhalt, hawait]

/-- Settles O37: between steps and after a tick without a fault every raised flag is that of the instruction in
`cur`. -/
theorem atMostOneFlagSet : Obligations.AtMostOneFlagSet := by
  rintro s ⟨hdata, hflags⟩ hf
  have hok := hflags hf
  obtain ⟨hout, -, -, -, hmatch⟩ := (flagsOk_iff s).mp hok
  refine ⟨hmatch.oneFlag, hout, fun t htick ht => ?_⟩
  obtain ⟨-, hticked⟩ := tick_ticked ((dataOk_iff s).mp hdata) hok htick
  exact (hticked ht).oneFlag

end Sys2Proof.Machine
end

section
/-! SUPPORT. 10_state.md R22: what a step does whose fetch meets `MEM_LIMIT`, at the instruction word or at a
parameter (20_memory.md R44, 30_encoding.md R84). -/

namespace Sys2Proof

/-- The number of Words of an instruction, as its first Word determines it (R78, R79). -/
def Head.length : Head → Nat
  | .p0 => 1
  | .p1 _ _ => 2
  | .p2 _ _ _ => 3
  | .p3 _ _ _ _ => 4

theorem Op1.build_length (op : Op1) (a : Operand) : (op.build a).length = 2 := by cases op <;> rfl

theorem Op2.build_length (op : Op2) (a b : Operand) : (op.build a b).length = 3 := by cases op <;> rfl

theorem Op3.build_length (op : Op3) (a b c : Operand) : (op.build a b c).length = 4 := by cases op <;> rfl

/-- Words that decode begin with an instruction word, and it determines the length (R78, R79). -/
theorem decode_ok_head {w : Word} {ws rest : List Word} {i : Instr} (h : decode (w :: ws) = .ok (i, rest)) :
    ∃ hd, decodeHead w = .ok hd ∧ i.length = hd.length := by
  rw [decode] at h
  split at h
  · cases h
  · rename_i hd hhead
    refine ⟨hd, hhead, ?_⟩
    split at h <;> cases h
    · rfl
    · exact Op1.build_length _ _
    · exact Op2.build_length _ _ _
    · exact Op3.build_length _ _ _ _

end Sys2Proof

namespace Sys2Proof.Machine

/-- The trap of a fetch that meets `MEM_LIMIT`. -/
def limitTrap (cfg : Config) : Trap := { cause := .badAddress, info := cfg.memLimit }

/-- Fetching a Word and going on traps at `MEM_LIMIT` when the fetch is at `MEM_LIMIT`, or lies below it and what
follows does. -/
theorem fetchWord_bind_limitTrap {β : Type} {s : State} {j k : Nat} {f : Word → State → Res β}
    (hk : s.pc + k = s.cfg.memLimit) (hj : j ≤ k)
    (hnext : j < k → ∀ w, f w (s.fetched (j + 1)) = .raise (limitTrap s.cfg) (s.fetched k)) :
    (fetchWord (s.fetched j)).bind f = .raise (limitTrap s.cfg) (s.fetched k) := by
  rcases Nat.lt_or_eq_of_le hj with hlt | rfl
  · rw [fetchWord_fetched (by omega), bind_ok, hnext hlt]
  · rw [fetchWord_fetched_raise hk.ge, bind_raise, hk, limitTrap]

/-- The parameters run past `MEM_LIMIT` after `k` Words: all Words below it are fetched, the next one traps. -/
theorem fetchParams_limitTrap {s : State} {hd : Head} {k : Nat} (hk : s.pc + k = s.cfg.memLimit) (h1 : 1 ≤ k)
    (hlen : k < hd.length) : fetchParams hd (s.fetched 1) = .raise (limitTrap s.cfg) (s.fetched k) := by
  cases hd with
  | p0 => exact absurd hlen (by simp only [Head.length]; omega)
  | p1 op a =>
    simp only [Head.length] at hlen
    exact fetchWord_bind_limitTrap hk h1 fun h => by omega
  | p2 op a b =>
    simp only [Head.length] at hlen
    exact fetchWord_bind_limitTrap hk h1 fun h _ => fetchWord_bind_limitTrap hk h fun h => by omega
  | p3 op a b c =>
    simp only [Head.length] at hlen
    exact fetchWord_bind_limitTrap hk h1 fun h _ => fetchWord_bind_limitTrap hk h fun h _ =>
      fetchWord_bind_limitTrap hk h fun h => by omega

/-- A decode whose instruction word lies at or above `MEM_LIMIT` (R22, R44). -/
theorem decodeStep_raise {s : State} (h : s.cfg.memLimit ≤ s.pc) :
    decodeStep s = .raise { cause := .badAddress, info := s.pc } s := by
  rw [decodeStep, fetchWord_raise h, bind_raise]

/-- A decode whose parameters run past `MEM_LIMIT` after `k` Words (R84). -/
theorem decodeStep_limitTrap {s : State} {i : Instr} {rest : List Word} {k : Nat} (hk : s.pc + k = s.cfg.memLimit)
    (h1 : 1 ≤ k) (hdec : decode (s.wordsAt s.pc) = .ok (i, rest)) (hlen : k < i.length) :
    decodeStep s = .raise (limitTrap s.cfg) (s.fetched k) := by
  obtain ⟨hd, hhead, hlength⟩ := decode_ok_head hdec
  rw [decodeStep_eq (by omega), hhead]
  exact congrArg (Res.bind · _) (fetchParams_limitTrap hk h1 (hlength ▸ hlen))

/-- A step whose decode traps ends in the fault state, the record naming the address of the instruction word (R150,
R152). -/
theorem step_of_decode_raise {s t : State} {trap : Trap} (hf : s.fault = none) (hp : s.pending = false)
    (hd : decodeStep s = .raise trap t) : step s = .next ((takeFault (some s.pc) trap t).setRet none) := by
  rw [step_eq hf, tick_raise hp hd]
  rfl

/-- Words fetched change `pc` and the dense length alone (R41, R84). -/
theorem fetched_frame (s : State) (k : Nat) :
    s.fetched k = (s.setPc (s.pc + k)).setOverlay (s.fetched k).overlay := by
  unfold State.fetched
  split
  · rename_i hk
    subst hk
    rfl
  · rfl

/-- Settles O31: the decode traps at the instruction word, or at `MEM_LIMIT` after the Words below it were
fetched. -/
theorem fetchAtMemLimitFaults : Obligations.FetchAtMemLimitFaults := by
  intro s hf hp
  refine ⟨fun h => step_of_decode_raise hf hp (decodeStep_raise h), fun i rest hpc hdec hlen => ?_⟩
  obtain ⟨k, hk⟩ := Nat.exists_eq_add_of_le hpc.le
  have htrap := decodeStep_limitTrap hk.symm (by omega) hdec (by omega)
  refine ⟨_, step_of_decode_raise hf hp htrap, ?_, fetched_wordAt s k⟩
  rw [fetched_frame, ← hk]
  rfl

end Sys2Proof.Machine
end

section
/-! SUPPORT. 10_state.md R20 to R29: who writes what. The frame of an instruction is kept by each of the operations
its meaning is made of, and by the fault it may end in. -/

namespace Sys2Proof.Machine

/-- What the meaning of `i`, begun in `s`, leaves unchanged in `t`, and the instruction it takes to change it. -/
structure State.WrittenBy (i : Instr) (s t : State) : Prop where
  cfg : t.cfg = s.cfg
  image : t.image = s.image
  cur : t.cur = s.cur
  ret : t.ret = s.ret
  fHasOut : t.fHasOut = s.fHasOut
  rb : t.rb = s.rb ∨ ∃ a, i = .adjustRelativeBase a
  pc : t.pc = s.pc ∨ ∃ a b, i = .jumpIfTrue a b ∨ i = .jumpIfFalse a b
  input : t.inReg = s.inReg ∧ t.fAwaitIn = s.fAwaitIn ∨ ∃ a, i = .inp a
  outReg : t.outReg = s.outReg ∨ ∃ a, i = .out a
  fHalted : t.fHalted = s.fHalted ∨ i = .halt
  fault : t.fault = s.fault ∨ ∃ c x, t.fault = some { cause := c, loc := some (s.pc - i.length), info := x }
  words : ∀ a, t.wordAt a = s.wordAt a ∨ ∃ d, destOf i = some d ∧ ea s d = .ok (some a)

theorem State.WrittenBy.refl (i : Instr) (s : State) : s.WrittenBy i s :=
  ⟨rfl, rfl, rfl, rfl, rfl, .inl rfl, .inl rfl, .inl ⟨rfl, rfl⟩, .inl rfl, .inl rfl, .inl rfl, fun _ => .inl rfl⟩

/-- What holds of the state of a result, and is kept by what follows, holds of the state of both. -/
theorem bind_state {α β : Type} {P : State → Prop} {r : Res α} {f : α → State → Res β} (hr : P r.state)
    (hf : ∀ v t, P t → P (f v t).state) : P (r.bind f).state := by
  cases r with
  | ok v t => exact hf v t hr
  | raise trap t => exact hr

section
variable {i : Instr} {s t : State}

theorem State.WrittenBy.liftTrap {α : Type} (h : s.WrittenBy i t) (e : Except Trap α) :
    s.WrittenBy i (liftTrap e t).state := by
  cases e with
  | ok v => exact h
  | error trap => exact h

/-- Reading an operand writes nothing (R55). -/
theorem State.WrittenBy.readOp (h : s.WrittenBy i t) (o : Operand) : s.WrittenBy i (readOp o t).state := by
  rw [readOp_eq]
  cases operandVal t o with
  | error trap => exact h
  | ok v =>
    obtain ⟨hframe, hcells⟩ := touchOp_frame t o
    change s.WrittenBy i (t.touchOp o)
    rw [hframe]
    exact { h with words := fun a => wordAt_congr (s := t.setOverlay _) (t := t) hcells rfl a ▸ h.words a }

/-- Writing the destination writes at its effective address alone (R46). -/
theorem State.WrittenBy.writeOp (h : s.WrittenBy i t) {d : Operand} (hd : destOf i = some d) (v : Word) :
    s.WrittenBy i (writeOp d v t).state := by
  have hrb : t.rb = s.rb := h.rb.resolve_right (by rintro ⟨a, rfl⟩; cases hd)
  rw [writeOp_eq, ea_congr h.cfg hrb]
  cases hea : ea s d with
  | error trap => exact h
  | ok r =>
    cases r with
    | none => exact h
    | some a =>
      refine { h with words := fun b => ?_ }
      have hb := stored_wordAt t a v b
      by_cases hab : b = a
      · exact .inr ⟨d, hd, hab ▸ hea⟩
      · rw [if_neg hab] at hb
        exact hb ▸ h.words b

/-- A trap is recorded with the address of the instruction (R152); the record is all it writes. -/
theorem State.WrittenBy.conclude {r : Res Unit} (h : s.WrittenBy i r.state) :
    ∃ t, conclude i s r = .next t ∧ s.WrittenBy i t := by
  cases r with
  | ok v t => exact ⟨t, rfl, h⟩
  | raise trap t => exact ⟨_, rfl, { h with fault := .inr ⟨_, _, rfl⟩ }⟩

theorem State.WrittenBy.twoSources (f : Config → Int → Int → Except Trap Word) (a b : Operand) {c : Operand}
    (hc : destOf i = some c) : s.WrittenBy i (twoSources f a b c s).state := by
  refine bind_state (State.WrittenBy.readOp (.refl i s) a) fun x s₁ h₁ => bind_state (h₁.readOp b) fun y s₂ h₂ => ?_
  exact bind_state (h₂.liftTrap _) fun r s₃ h₃ => h₃.writeOp hc r

theorem State.WrittenBy.jumpWhen (taken : Int → Bool) (a b : Operand)
    (hi : ∃ a b, i = .jumpIfTrue a b ∨ i = .jumpIfFalse a b) : s.WrittenBy i (jumpWhen taken a b s).state := by
  refine bind_state (State.WrittenBy.readOp (.refl i s) a) fun x s₁ h₁ => bind_state (h₁.readOp b) fun y s₂ h₂ => ?_
  cases taken x with
  | false => exact h₂
  | true =>
    refine bind_state (h₂.liftTrap _) fun p s₃ h₃ => ?_
    exact { h₃ with pc := .inr hi }

end

theorem execIn_writtenBy (a : Operand) (s : State) : ∃ t, execIn a s = .next t ∧ s.WrittenBy (.inp a) t := by
  cases hin : s.inReg with
  | none => exact ⟨s, by simp only [execIn, hin], .refl _ s⟩
  | some v =>
    simp only [execIn, hin]
    have hconsumed : s.WrittenBy (.inp a) ((s.setInReg none).setAwaitIn false) :=
      { State.WrittenBy.refl (.inp a) s with input := .inr ⟨a, rfl⟩ }
    exact (hconsumed.writeOp rfl v).conclude

theorem execOut_writtenBy (a : Operand) (s : State) : ∃ t, execOut a s = .next t ∧ s.WrittenBy (.out a) t := by
  refine State.WrittenBy.conclude (bind_state (State.WrittenBy.readOp (.refl _ s) a) fun v t ht => ?_)
  exact { ht with outReg := .inr ⟨a, rfl⟩ }

theorem execAdjustRelativeBase_writtenBy (a : Operand) (s : State) :
    ∃ t, execAdjustRelativeBase a s = .next t ∧ s.WrittenBy (.adjustRelativeBase a) t := by
  refine State.WrittenBy.conclude (bind_state (State.WrittenBy.readOp (.refl _ s) a) fun x s₁ h₁ => ?_)
  refine bind_state (h₁.liftTrap _) fun r s₂ h₂ => ?_
  exact { h₂ with rb := .inr ⟨a, rfl⟩ }

/-- Every instruction answers a next state and writes what is named for it alone (R161). -/
theorem exec_writtenBy (i : Instr) (s : State) : ∃ t, exec i s = .next t ∧ s.WrittenBy i t := by
  cases i with
  | add a b c => exact (State.WrittenBy.twoSources wadd a b rfl).conclude
  | mul a b c => exact (State.WrittenBy.twoSources wmul a b rfl).conclude
  | lessThan a b c => exact (State.WrittenBy.twoSources _ a b rfl).conclude
  | equal a b c => exact (State.WrittenBy.twoSources _ a b rfl).conclude
  | inp a => exact execIn_writtenBy a s
  | out a => exact execOut_writtenBy a s
  | jumpIfTrue a b => exact (State.WrittenBy.jumpWhen _ a b ⟨a, b, .inl rfl⟩).conclude
  | jumpIfFalse a b => exact (State.WrittenBy.jumpWhen _ a b ⟨a, b, .inr rfl⟩).conclude
  | adjustRelativeBase a => exact execAdjustRelativeBase_writtenBy a s
  | halt => exact ⟨_, rfl, { State.WrittenBy.refl .halt s with fHalted := .inr rfl }⟩

/-- Settles O26: the clauses of `State.WrittenBy`, of every instruction. -/
theorem instructionsWriteOnlyTheirState : Obligations.InstructionsWriteOnlyTheirState := by
  intro i s
  obtain ⟨t, hexec, h⟩ := exec_writtenBy i s
  exact ⟨t, hexec, h.cfg, h.image, h.cur, h.ret, h.fHasOut, h.rb, h.pc, h.input, h.outReg, h.fHalted, h.fault, h.words⟩

end Sys2Proof.Machine
end

section
/-! SUPPORT. 20_memory.md R45, R46: the address of an operand, and the cell it reads and writes. -/

namespace Sys2Proof.Machine

/-- `NarrowsTo` names the one Word that `narrow` answers (R14). -/
theorem narrow_of_narrowsTo {cfg : Config} {exact r : Int} (h : NarrowsTo cfg exact r) :
    narrow cfg exact = .ok r := by
  rcases h with ⟨hfits, rfl⟩ | ⟨hfits, hwrap, hr, hcongr⟩
  · exact narrow_fits hfits
  · obtain ⟨-, hunique⟩ := wrapWord_unique cfg.width exact
    rw [narrow_wrap hfits hwrap, hunique r hr hcongr]

/-- The address of a `Relative` operand whose sum is a Word (R45). -/
theorem ea_relative_of_narrowsTo {s : State} {w r : Int} (h : NarrowsTo s.cfg (s.rb + w) r) :
    ea s (.relative w) = (addrOf s.cfg r).map some := by
  rw [ea, eaRelative, wadd, narrow_of_narrowsTo h]

/-- A natural number below `MEM_LIMIT` is the address it is (R13). -/
theorem addrOf_natCast {cfg : Config} {a : Nat} (h : a < cfg.memLimit) : addrOf cfg (a : Int) = .ok a :=
  addrOf_ok (by omega) (by omega)

/-- Settles O9: `ea` is the address view of one Word, that of the operand or the one its sum narrows to, and the
view and the sum have one law per case. -/
theorem effectiveAddressTranslates : Obligations.EffectiveAddressTranslates := by
  refine fun s w => ⟨rfl, ?_, fun hw => ?_, fun a hr ha => ?_, fun r hr hbad => ?_, fun hf ho => ?_⟩
  · rintro a rfl ha
    rw [ea, eaPositional, addrOf_natCast ha]
    rfl
  · rw [ea, eaPositional, addrOf_error hw]
    rfl
  · rw [ea_relative_of_narrowsTo hr, addrOf_natCast ha]
    rfl
  · rw [ea_relative_of_narrowsTo hr, addrOf_error hbad]
    rfl
  · rw [ea, eaRelative, wadd, narrow_fault hf ho]
    rfl

/-- The value of an operand is the Word at its effective address, and its own Word where it has none (R46). -/
theorem operandVal_eq_ea (s : State) (o : Operand) :
    operandVal s o = (ea s o).map fun d => (d.map s.wordAt).getD o.raw := by
  cases o with
  | immediate w => rfl
  | positional w =>
    rw [operandVal, ea]
    cases eaPositional s w <;> rfl
  | relative w =>
    rw [operandVal, ea]
    cases eaRelative s w <;> rfl

theorem touchOp_sameButReads (s : State) (o : Operand) : SameButReads s (s.touchOp o) := by
  obtain ⟨hframe, hcells⟩ := touchOp_frame s o
  exact ⟨hframe, wordAt_congr hcells (by rw [hframe]; rfl)⟩

theorem stored_storesOnly (s : State) (a : Nat) (v : Word) : StoresOnly s (s.stored a v) (some a) v := by
  refine ⟨rfl, fun b => ?_⟩
  rw [stored_wordAt]
  exact if_congr (by rw [Option.some_inj, eq_comm]) rfl rfl

/-- Settles O10: reading and writing an operand follow its effective address. -/
theorem operandsReadAndWriteTheirCell : Obligations.OperandsReadAndWriteTheirCell := by
  refine fun s o v => ⟨?_, fun a ha => ⟨⟨s.touchOp o, ?_, touchOp_sameButReads s o⟩,
    ⟨s.stored a v, ?_, stored_storesOnly s a v⟩⟩, fun tr ht => ⟨?_, ?_⟩⟩
  · rintro w rfl
    exact ⟨rfl, rfl⟩
  · rw [readOp_eq, operandVal_eq_ea, ha]
    rfl
  · rw [writeOp_eq, ha]
  · rw [readOp_eq, operandVal_eq_ea, ht]
    rfl
  · rw [writeOp_eq, ht]

end Sys2Proof.Machine
end

section
/-! SUPPORT. 20_memory.md R41, R42, R49, R63: the backends, and what the combined address space reads as after
accesses and after `reset()`. -/

namespace Sys2Proof.Machine

/-- Growing changes the dense length alone (R41). -/
theorem grow_eq (m : Memory) (a : Nat) : m.grow a = { m with len := max m.len (a + 1) } :=
  Memory.ext_fields (grow_cells m a) (grow_len m a)

/-- A backend that was written reads the Word at its address. -/
theorem cellsGet_backendWrite_same (b : Backend) (m : Memory) (a : Nat) (v : Word) :
    cellsGet (backendWrite b m a v).cells a = some v := by
  rw [backendWrite_cells, cellsGet_put_same]

theorem cellsGet_backendWrite_other (b : Backend) (m : Memory) {a c : Nat} (v : Word) (h : c ≠ a) :
    cellsGet (backendWrite b m a v).cells c = cellsGet m.cells c := by
  rw [backendWrite_cells, cellsGet_put_other _ _ h]

theorem cellsGet_backendReset (b : Backend) (cap : Nat) (m : Memory) (a : Nat) :
    cellsGet (backendReset b cap m).cells a = none := by
  rw [backendReset_cells, cellsGet]

/-- Settles O11: every access grows the length by `grow_eq`, and the slots follow the laws of both backends. -/
theorem denseBackendGrows : Obligations.DenseBackendGrows :=
  ⟨fun _ _ _ => ⟨rfl, fun _ => rfl⟩, fun cap m a v => ⟨rfl, grow_eq m a, grow_len m a,
    cellsGet_backendWrite_same .dense m a v, fun _ hb => cellsGet_backendWrite_other .dense m v hb, rfl,
    cellsGet_backendReset .dense cap m⟩⟩

/-- Settles O12: an address is listed, or unlisted at or beyond the capacity, or unlisted below it. -/
theorem sparseBackendZeroFills : Obligations.SparseBackendZeroFills := by
  refine ⟨fun _ _ _ _ => rfl, fun cap m a v => ⟨fun w hw => ?_, fun hn hcap => ?_, fun hn hcap => ?_,
    cellsGet_backendWrite_same .sparse m a v, fun _ hb => cellsGet_backendWrite_other .sparse m v hb,
    cellsGet_backendReset .sparse cap m⟩⟩
  · simp only [backendRead, hw]
  · simp only [backendRead, hn, if_pos hcap]
  · simp only [backendRead, hn, if_neg (Nat.not_le.mpr hcap)]

/-- A machine whose overlay is unset everywhere reads as its image, and zero beyond it (R47). -/
theorem wordAt_of_cells_nil {s : State} (h : s.overlay.cells = []) (a : Nat) : s.wordAt a = s.image.getD a 0 := by
  rw [wordAt_eq, h, cellsGet, Option.getD_none]

theorem resetState_cells (s : State) : (resetState s).overlay.cells = [] := backendReset_cells _ _ _

@[simp] theorem Access.run_cfg (s : State) (x : Access) : (x.run s).cfg = s.cfg := by
  cases x with
  | read a => simp only [Access.run, memRead]; split <;> rfl
  | write a v => simp only [Access.run, memWrite]; split <;> rfl

theorem foldl_run_cfg (l : List Access) (s : State) : (l.foldl Access.run s).cfg = s.cfg := by
  induction l generalizing s with
  | nil => rfl
  | cons x r ih => exact (ih (x.run s)).trans (x.run_cfg s)

/-- What an address reads as after one legal access: the Word written there, else what it was (R48, R55). -/
theorem Access.run_wordAt {s : State} {x : Access} (h : x.addr < s.cfg.memLimit) (a : Nat) :
    (x.run s).wordAt a = (lastWrite a [x]).getD (s.wordAt a) := by
  cases x with
  | read b =>
    rw [Access.run, memRead_ok (a := b) h]
    exact touch_wordAt s b a
  | write b v =>
    rw [Access.run, memWrite_ok (a := b) h]
    refine (stored_wordAt s b v a).trans ?_
    simp only [lastWrite, eq_comm (a := b)]
    split <;> rfl

/-- A later write supersedes an earlier one (R49). -/
theorem lastWrite_cons (a : Nat) (x : Access) (r : List Access) :
    lastWrite a (x :: r) = (lastWrite a r).or (lastWrite a [x]) := by
  cases x with
  | read b => exact Option.or_none.symm
  | write b v => simp only [lastWrite]; cases lastWrite a r <;> rfl

/-- What an address reads as after legal accesses: the most recent write there, else what it was (R49). -/
theorem foldl_run_wordAt {l : List Access} {s : State} (h : ∀ x ∈ l, x.addr < s.cfg.memLimit) (a : Nat) :
    (l.foldl Access.run s).wordAt a = (lastWrite a l).getD (s.wordAt a) := by
  induction l generalizing s with
  | nil => rfl
  | cons x r ih =>
    obtain ⟨hx, hr⟩ := List.forall_mem_cons.mp h
    calc (r.foldl Access.run (x.run s)).wordAt a
        = (lastWrite a r).getD ((x.run s).wordAt a) := ih (by simpa only [Access.run_cfg] using hr)
      _ = (lastWrite a r).getD ((lastWrite a [x]).getD (s.wordAt a)) := by rw [Access.run_wordAt hx]
      _ = (lastWrite a (x :: r)).getD (s.wordAt a) := by rw [lastWrite_cons a x r, Option.getD_or]

/-- Settles O13: construction and reset leave the overlay unset, and the accesses are followed one by one. -/
theorem readGivesLastWriteElseImageElseZero : Obligations.ReadGivesLastWriteElseImageElseZero := by
  intro s l a hstart hlegal ha
  have hunset : s.overlay.cells = [] := by
    rcases hstart with hs | ⟨u, rfl⟩
    · rw [hs, State.initial_overlay]
    · exact resetState_cells u
  have hread := memRead_ok (s := l.foldl Access.run s) (by rwa [foldl_run_cfg])
  rw [foldl_run_wordAt hlegal, wordAt_of_cells_nil hunset] at hread
  exact ⟨_, hread⟩

section
variable {s : State}

/-- `reset()` of a healthy machine between two `run()` calls (R192). -/
theorem hostOp_reset_idle (hf : s.fault = none) (hi : s.inRun = false) (n : Nat) :
    hostOp n .reset s = (.done, resetState s) := by
  rw [hostOp_healthy hf, hostOpHealthy, betweenRuns_idle hi]

/-- `peek` of a legal address between two `run()` calls (R167). -/
theorem hostOp_peek_idle (hf : s.fault = none) (hi : s.inRun = false) {a : Nat} (ha : a < s.cfg.memLimit) (n : Nat) :
    hostOp n (.peek a) s = (.word (s.wordAt a), s.touch a) := by
  rw [hostOp_healthy hf, hostOpHealthy, betweenRuns_idle hi, peekState, memRead_ok ha]

/-- `poke` at a legal address between two `run()` calls (R168). -/
theorem hostOp_poke_idle (hf : s.fault = none) (hi : s.inRun = false) {a : Nat} (ha : a < s.cfg.memLimit) (v : Word)
    (n : Nat) : hostOp n (.poke a v) s = (.done, s.stored a v) := by
  rw [hostOp_healthy hf, hostOpHealthy, betweenRuns_idle hi, pokeState, memWrite_ok ha]

/-- A store leaves `cur`, `ret` and `fault` as they were. -/
theorem stored_inRun (a : Nat) (v : Word) : (s.stored a v).inRun = s.inRun := inRun_congr rfl rfl rfl

theorem resetState_inRun : (resetState s).inRun = false := inRun_of_cur_none rfl

end

/-- Settles O47: the reset unsets the poked address with every other one. -/
theorem pokeIsUndoneByReset : Obligations.PokeIsUndoneByReset := by
  intro s n a b v hf hi ha hb
  have hreset := hostOp_reset_idle (s := s.stored a v) hf ((stored_inRun a v).trans hi) n
  have hpeek := hostOp_peek_idle (s := resetState (s.stored a v)) hf resetState_inRun hb n
  rw [hostOp_poke_idle hf hi ha, hreset, hpeek, wordAt_of_cells_nil (resetState_cells _)]
  rfl

end Sys2Proof.Machine
end

section
/-! SUPPORT. 20_memory.md R62, 60_exceptions.md R154: the machines of one process. -/

namespace Sys2Proof.Machine

theorem anyFaulted_iff {ms : List State} : anyFaulted ms = true ↔ ∃ m ∈ ms, m.fault ≠ none := by
  simp only [anyFaulted, List.any_eq_true, Option.isSome_iff_ne_none]

/-- A fault in any machine has ended the process (R154). -/
theorem processOp_faulted {ms : List State} (h : ∃ m ∈ ms, m.fault ≠ none) (k n : Nat) (op : HostOp) :
    processOp k n op ms = (.noResult, ms) := by
  rw [processOp, if_pos (anyFaulted_iff.mpr h)]

/-- In a healthy process the operation is that of the one machine (R178). -/
theorem processOp_healthy {ms : List State} (h : ¬ ∃ m ∈ ms, m.fault ≠ none) {k : Nat} {m : State}
    (hm : ms[k]? = some m) (n : Nat) (op : HostOp) :
    processOp k n op ms = ((hostOp n op m).1, ms.set k (hostOp n op m).2) := by
  rw [processOp, if_neg (mt anyFaulted_iff.mp h), hm]

/-- In a healthy process an operation on a machine it does not have has no effect. -/
theorem processOp_absent {ms : List State} (h : ¬ ∃ m ∈ ms, m.fault ≠ none) {k : Nat} (hm : ms[k]? = none) (n : Nat)
    (op : HostOp) : processOp k n op ms = (.noResult, ms) := by
  rw [processOp, if_neg (mt anyFaulted_iff.mp h), hm]

/-- Every machine but the `k`-th is as it was (R62). -/
theorem processOp_getElem?_ne (ms : List State) {j k : Nat} (hj : j ≠ k) (n : Nat) (op : HostOp) :
    (processOp k n op ms).2[j]? = ms[j]? := by
  by_cases h : ∃ m ∈ ms, m.fault ≠ none
  · rw [processOp_faulted h]
  · cases hm : ms[k]? with
    | none => rw [processOp_absent h hm]
    | some m => rw [processOp_healthy h hm, List.getElem?_set_ne hj.symm]

/-- Settles O53: the process is faulted, or the operation replaces the `k`-th machine in the list. -/
theorem machinesShareNothingButFaults : Obligations.MachinesShareNothingButFaults := by
  refine fun ms k n op => ⟨fun j hj => processOp_getElem?_ne ms hj n op, fun h => processOp_faulted h k n op,
    fun m hall hm => ?_⟩
  have hhealthy : ¬ ∃ x ∈ ms, x.fault ≠ none := fun ⟨x, hx, hne⟩ => hne (hall x hx)
  obtain ⟨hlt, -⟩ := List.getElem?_eq_some_iff.mp hm
  rw [processOp_healthy hhealthy hm]
  exact ⟨rfl, List.getElem?_set_self hlt⟩

end Sys2Proof.Machine
end

section
/-! SUPPORT. 30_encoding.md sections 1 to 3 and 7: the instruction words, read and written. A `Head` is what an
instruction word determines; each has exactly one word, and the decoder and the encoder agree through it. -/

namespace Sys2Proof

/-! ## Heads and their words (R66, R69, R71) -/

/-- The number of a base opcode: the inverse of `opOf` (R69). -/
def Op.code : Op → Nat
  | .p3 .add => 1
  | .p3 .mul => 2
  | .p1 .inp => 3
  | .p1 .out => 4
  | .p2 .jumpIfTrue => 5
  | .p2 .jumpIfFalse => 6
  | .p3 .lessThan => 7
  | .p3 .equal => 8
  | .p1 .adjustRelativeBase => 9
  | .p0 => 99

/-- The number of parameters of a base opcode (R69). -/
def Op.arity : Op → Nat
  | .p0 => 0
  | .p1 _ => 1
  | .p2 _ => 2
  | .p3 _ => 3

/-- The base opcode of a head. -/
def Head.op : Head → Op
  | .p0 => .p0
  | .p1 op _ => .p1 op
  | .p2 op _ _ => .p2 op
  | .p3 op _ _ _ => .p3 op

/-- The modes of a head, one per parameter. -/
def Head.modes : Head → List Mode
  | .p0 => []
  | .p1 _ a => [a]
  | .p2 _ a b => [a, b]
  | .p3 _ a b c => [a, b, c]

/-- The mode digit of parameter `i + 1` among the modes of all parameters, 0 where there is no such parameter (R72). -/
def modeDigitAt (ms : List Mode) (i : Nat) : Nat := ms[i]?.elim 0 Mode.digit

/-- The mode digit of parameter `i + 1` of a head. -/
def Head.modeDigit (h : Head) (i : Nat) : Nat := modeDigitAt h.modes i

/-- The one instruction word of a head (R66, R92). -/
def Head.word (h : Head) : Nat := h.op.code + 100 * h.modeDigit 0 + 1000 * h.modeDigit 1 + 10000 * h.modeDigit 2

theorem opOf_code (op : Op) : opOf op.code = some op := by
  rcases op with _ | op | op | op
  · rfl
  all_goals cases op <;> rfl

theorem opOf_eq_some {n : Nat} {op : Op} (h : opOf n = some op) : n = op.code := by
  unfold opOf at h
  split at h <;> cases h <;> rfl

theorem Op.code_lt (op : Op) : op.code < 100 := by
  rcases op with _ | op | op | op
  · decide
  all_goals cases op <;> decide

theorem Head.modeDigit_lt (h : Head) (i : Nat) : h.modeDigit i < 10 := by
  rw [modeDigit, modeDigitAt]
  cases h.modes[i]? with
  | none => decide
  | some m => exact (mode_digit_le m).trans_lt (by decide)

/-- The modes read off the digits of a word are those of the head, and the other digits are 0 (R71, R72). -/
theorem headModes_eq_some {op : Op} {n : Nat} {h : Head} (hm : headModes op n = some h) :
    h.op = op ∧ digit 2 n = h.modeDigit 0 ∧ digit 3 n = h.modeDigit 1 ∧ digit 4 n = h.modeDigit 2 := by
  cases op with
  | p0 =>
    rw [headModes, Option.ite_none_right_eq_some] at hm
    obtain ⟨⟨h2, h3, h4⟩, ⟨⟩⟩ := hm
    exact ⟨rfl, h2, h3, h4⟩
  | p1 op =>
    simp only [headModes] at hm
    split at hm
    · rename_i a ha
      rw [Option.ite_none_right_eq_some] at hm
      obtain ⟨⟨h3, h4⟩, ⟨⟩⟩ := hm
      exact ⟨rfl, modeOfDigit_eq ha, h3, h4⟩
    · cases hm
  | p2 op =>
    simp only [headModes] at hm
    split at hm
    · rename_i a b ha hb
      rw [Option.ite_none_right_eq_some] at hm
      obtain ⟨h4, ⟨⟩⟩ := hm
      exact ⟨rfl, modeOfDigit_eq ha, modeOfDigit_eq hb, h4⟩
    · cases hm
  | p3 op =>
    simp only [headModes] at hm
    split at hm
    · rename_i a b c ha hb hc
      cases hm
      exact ⟨rfl, modeOfDigit_eq ha, modeOfDigit_eq hb, modeOfDigit_eq hc⟩
    · cases hm

/-- A word with the digits of a head has its modes (R71, R72). -/
theorem headModes_self {h : Head} {n : Nat} (h2 : digit 2 n = h.modeDigit 0) (h3 : digit 3 n = h.modeDigit 1)
    (h4 : digit 4 n = h.modeDigit 2) : headModes h.op n = some h := by
  cases h <;> simp [headModes, Head.op, h2, h3, h4, Head.modeDigit, modeDigitAt, Head.modes]

/-- The checks on an instruction word in range: its opcode, then its mode digits (R84, R85). -/
theorem decodeHead_natCast {n : Nat} (hn : n < 100000) : decodeHead (n : Int) =
    (opOf (n % 100)).elim (.error (.badOpcode n)) fun op => (headModes op n).elim (.error (.badMode n)) .ok := by
  rw [decodeHead, if_neg (by omega), Int.toNat_natCast]
  cases opOf (n % 100) with
  | none => rfl
  | some op =>
    cases hm : headModes op n <;> simp [hm]

theorem decodeHead_out_of_range {w : Int} (h : w < 0 ∨ 100000 ≤ w) : decodeHead w = .error (.badOpcode w) := by
  rw [decodeHead, if_pos h]

/-- An instruction word is the word of its head: its fields are those the decoder checked (R66). -/
theorem eq_word_of_decodeHead {w : Int} {h : Head} (hw : decodeHead w = .ok h) : w = h.word := by
  by_cases hrange : w < 0 ∨ 100000 ≤ w
  · rw [decodeHead_out_of_range hrange] at hw
    cases hw
  · lift w to Nat using by omega with n
    have hn : n < 100000 := by omega
    rw [decodeHead_natCast hn] at hw
    cases hop : opOf (n % 100) with
    | none => simp [hop] at hw
    | some op =>
      cases hm : headModes op n with
      | none => simp [hop, hm] at hw
      | some h' =>
        obtain rfl : h' = h := by simpa [hop, hm] using hw
        obtain ⟨rfl, h2, h3, h4⟩ := headModes_eq_some hm
        rw [Head.word, ← opOf_eq_some hop, ← h2, ← h3, ← h4, ← word_of_digits hn]

/-- The word of a head decodes to it (R84). -/
@[simp] theorem decodeHead_self (h : Head) : decodeHead (h.word : Int) = .ok h := by
  have hop := h.op.code_lt
  have hd := h.modeDigit_lt
  obtain ⟨-, -, h2, h3, h4⟩ := digits_of_word h.op.code _ _ _ hop (hd 0) (hd 1) (hd 2)
  exact decodeHead_word _ _ _ hop (opOf_code _) (hd 0) (hd 1) (hd 2) h (headModes_self h2 h3 h4)

/-! ## Instructions and their Words (R65, R92) -/

/-- Every instruction is built by the opcode of its number of parameters (R80, R94). -/
theorem Instr.cases_build {motive : Instr → Prop} (p0 : motive .halt) (p1 : ∀ (op : Op1) a, motive (op.build a))
    (p2 : ∀ (op : Op2) a b, motive (op.build a b)) (p3 : ∀ (op : Op3) a b c, motive (op.build a b c)) (i : Instr) :
    motive i :=
  match i with
  | .add a b c => p3 .add a b c
  | .mul a b c => p3 .mul a b c
  | .inp a => p1 .inp a
  | .out a => p1 .out a
  | .jumpIfTrue a b => p2 .jumpIfTrue a b
  | .jumpIfFalse a b => p2 .jumpIfFalse a b
  | .lessThan a b c => p3 .lessThan a b c
  | .equal a b c => p3 .equal a b c
  | .adjustRelativeBase a => p1 .adjustRelativeBase a
  | .halt => p0

/-- The mode digits of up to three operands, each at its weight (R92). -/
theorem modeDigits_eq (os : List Operand) (hl : os.length ≤ 3) :
    modeDigits 100 os = 100 * modeDigitAt (os.map Operand.mode) 0 + 1000 * modeDigitAt (os.map Operand.mode) 1
      + 10000 * modeDigitAt (os.map Operand.mode) 2 := by
  match os, hl with
  | [], _ => rfl
  | [a], _ => rfl
  | [a, b], _ => rfl
  | [a, b, c], _ => exact (Nat.add_assoc _ _ _).symm

/-- The Words of an instruction with the opcode and the modes of a head (R92). -/
theorem encode_eq {i : Instr} {h : Head} (hop : i.opcode = h.op.code) (hm : i.operands.map Operand.mode = h.modes) :
    encode i = (h.word : Int) :: i.operands.map Operand.raw := by
  rw [encode, modeDigits_eq _ i.operands_length_le, hm, hop, ← Nat.add_assoc, ← Nat.add_assoc]
  rfl

theorem encode_build1 (op : Op1) (a : Operand) : encode (op.build a) = [((Head.p1 op a.mode).word : Int), a.raw] := by
  cases op <;> exact encode_eq rfl rfl

theorem encode_build2 (op : Op2) (a b : Operand) :
    encode (op.build a b) = [((Head.p2 op a.mode b.mode).word : Int), a.raw, b.raw] := by
  cases op <;> exact encode_eq rfl rfl

theorem encode_build3 (op : Op3) (a b c : Operand) :
    encode (op.build a b c) = [((Head.p3 op a.mode b.mode c.mode).word : Int), a.raw, b.raw, c.raw] := by
  cases op <;> exact encode_eq rfl rfl

/-- Settles O1: an instruction is its opcode applied to its operands, and its word decodes to its head. -/
theorem decodeOfEncodeIsInstr : Obligations.DecodeOfEncodeIsInstr := by
  intro i rest
  cases i using Instr.cases_build with
  | p0 => rfl
  | p1 op a => simp [encode_build1, decode]
  | p2 op a b => simp [encode_build2, decode]
  | p3 op a b c => simp [encode_build3, decode]

/-- Settles O2: the first Word is the word of a head, and the parameter Words are those of the operands read. -/
theorem encodeOfDecodeIsWords : Obligations.EncodeOfDecodeIsWords := by
  intro ws i rest hdec
  cases ws with
  | nil => cases hdec
  | cons w ws =>
    obtain ⟨h, hhead, -⟩ := decode_ok_head hdec
    obtain rfl := eq_word_of_decodeHead hhead
    simp only [decode, decodeHead_self] at hdec
    split at hdec <;> cases hdec
    · rfl
    · simp [encode_build1]
    · simp [encode_build2]
    · simp [encode_build3]

/-! ## The words that are rejected (R67 to R72) -/

theorem paramCount_code (op : Op) : Machine.paramCount op.code = some op.arity := by
  rcases op with _ | op | op | op
  · rfl
  all_goals cases op <;> rfl

/-- The table of parameter counts is that of the opcodes (R69). -/
theorem paramCount_eq (n : Nat) : Machine.paramCount n = (opOf n).map Op.arity := by
  cases h : opOf n with
  | some op =>
    obtain rfl := opOf_eq_some h
    exact paramCount_code op
  | none =>
    unfold Machine.paramCount
    split
    case h_11 => rfl
    all_goals cases h

/-- The digit of a parameter the instruction has is malformed when it selects no mode (R71). -/
theorem badModeDigit_present {k n i : Nat} (h : i ≤ k) :
    Machine.badModeDigit k n i ↔ modeOfDigit (digit (i + 1) n) = none := by
  simp [Machine.badModeDigit, modeOfDigit_none, h, Nat.not_lt.mpr h]

/-- The digit of a parameter the instruction lacks is malformed when it is set (R72). -/
theorem badModeDigit_absent {k n i : Nat} (h : k < i) : Machine.badModeDigit k n i ↔ digit (i + 1) n ≠ 0 := by
  simp [Machine.badModeDigit, h, Nat.not_le.mpr h]

/-- The mode digits are rejected when that of some parameter is malformed (R71, R72). -/
theorem headModes_eq_none {op : Op} {n : Nat} : headModes op n = none ↔ Machine.badModeDigit op.arity n 1 ∨
    Machine.badModeDigit op.arity n 2 ∨ Machine.badModeDigit op.arity n 3 := by
  cases op with
  | p0 =>
    simp only [Op.arity, badModeDigit_absent, Nat.reduceLT]
    simp [headModes, imp_iff_not_or]
  | p1 op =>
    simp only [Op.arity, badModeDigit_present, badModeDigit_absent, Nat.reduceLT, Nat.reduceLeDiff]
    cases ha : modeOfDigit (digit 2 n) <;> simp [headModes, ha, imp_iff_not_or]
  | p2 op =>
    simp only [Op.arity, badModeDigit_present, badModeDigit_absent, Nat.reduceLT, Nat.reduceLeDiff]
    cases ha : modeOfDigit (digit 2 n) <;> cases hb : modeOfDigit (digit 3 n) <;> simp [headModes, ha, hb]
  | p3 op =>
    simp only [Op.arity, badModeDigit_present, Nat.reduceLeDiff]
    cases ha : modeOfDigit (digit 2 n) <;> cases hb : modeOfDigit (digit 3 n) <;>
      cases hc : modeOfDigit (digit 4 n) <;> simp [headModes, ha, hb, hc]

/-- Settles O4: the range, the opcode and the mode digits are checked in turn. -/
theorem headRejectsExactlyIllFormed : Obligations.HeadRejectsExactlyIllFormed := by
  simp only [Obligations.HeadRejectsExactlyIllFormed, paramCount_eq, Option.map_eq_none_iff, Option.map_eq_some_iff]
  refine ⟨fun w => decodeHead_out_of_range, fun n hn hop => ?_, ?_, ?_⟩
  · rw [decodeHead_natCast hn, hop]
    rfl
  · rintro n k hn ⟨op, hop, rfl⟩ hbad
    rw [decodeHead_natCast hn, hop, Option.elim, headModes_eq_none.mpr hbad]
    rfl
  · rintro n k hn ⟨op, hop, rfl⟩ hgood
    obtain ⟨h, hm⟩ := Option.ne_none_iff_exists'.mp (headModes_eq_none.not.mpr hgood)
    exact ⟨h, by rw [decodeHead_natCast hn, hop, Option.elim, hm]; rfl⟩

/-! ## The lengths (R78, R79) -/

theorem encode_length (i : Instr) : (encode i).length = i.length := by
  obtain ⟨-, hlen, -⟩ := i.shape
  simp [encode, hlen]

/-- Settles O6: one Word for the opcode and one for each operand. -/
theorem instructionLengthsMatchTable : Obligations.InstructionLengthsMatchTable :=
  fun _ _ _ => ⟨rfl, rfl, rfl, rfl, rfl, rfl, rfl, rfl, rfl, rfl, encode_length⟩

end Sys2Proof
end

section
/-! SUPPORT. 30_encoding.md sections 5 and 6, 60_exceptions.md R160: the step that decodes. -/

namespace Sys2Proof.Machine

/-- Settles O27: each equation is the definition of `decodeFlags` at one instruction (R88). -/
theorem decodeSetsItsFlag : Obligations.DecodeSetsItsFlag :=
  fun _ _ _ _ => ⟨rfl, rfl, rfl, rfl, rfl, rfl, rfl, rfl, rfl, rfl⟩

@[simp] theorem decodeFlags_rb (i : Instr) (s : State) : (decodeFlags i s).rb = s.rb := by cases i <;> rfl

@[simp] theorem decodeFlags_inReg (i : Instr) (s : State) : (decodeFlags i s).inReg = s.inReg := by cases i <;> rfl

@[simp] theorem decodeFlags_fault (i : Instr) (s : State) : (decodeFlags i s).fault = s.fault := by cases i <;> rfl

@[simp] theorem decodeFlags_wordAt (i : Instr) (s : State) (a : Nat) : (decodeFlags i s).wordAt a = s.wordAt a := by
  cases i <;> rfl

/-- The state after the decode is the one after the Words were fetched, with the flag and `cur` (R84, R88). -/
theorem afterDecode_eq (s : State) (i : Instr) :
    s.afterDecode i = (decodeFlags i (s.fetched i.length)).setCur (some i) := by
  have h : i.length ≠ 0 := by cases i <;> simp [Instr.length]
  rw [State.afterDecode, State.fetched, if_neg h]

/-- Fetching a Word that lies below `MEM_LIMIT`, and going on (R84). -/
theorem fetchWord_fetched_bind {β : Type} {s : State} {k : Nat} {f : Word → State → Res β}
    (h : s.pc + k < s.cfg.memLimit) :
    (fetchWord (s.fetched k)).bind f = f (s.wordAt (s.pc + k)) (s.fetched (k + 1)) := by
  rw [fetchWord_fetched h, bind_ok]

/-- The parameters of a head whose Words lie below `MEM_LIMIT`, and the instruction (R84, R86). -/
theorem fetchParams_of_decode {s : State} {hd : Head} {i : Instr} {rest : List Word}
    (hhead : decodeHead (s.wordAt s.pc) = .ok hd) (hlim : s.pc + hd.length ≤ s.cfg.memLimit)
    (hdec : decode (s.wordsAt s.pc) = .ok (i, rest)) :
    fetchParams hd (s.fetched 1) = .ok i (s.fetched hd.length) := by
  simp only [State.wordsAt, decode, hhead] at hdec
  cases hd <;> cases hdec <;> simp only [Head.length] at hlim
  case p0 => rfl
  case p1 op a => exact fetchWord_fetched_bind (by omega)
  case p2 op a b => exact (fetchWord_fetched_bind (by omega)).trans (fetchWord_fetched_bind (by omega))
  case p3 op a b c =>
    exact (fetchWord_fetched_bind (by omega)).trans <|
      (fetchWord_fetched_bind (by omega)).trans (fetchWord_fetched_bind (by omega))

/-- A decode whose Words lie below `MEM_LIMIT` (R84). -/
theorem decodeStep_of_decode {s : State} {i : Instr} {rest : List Word} (hlim : s.pc + i.length ≤ s.cfg.memLimit)
    (hdec : decode (s.wordsAt s.pc) = .ok (i, rest)) :
    decodeStep s = .ok i (decodeFlags i (s.fetched i.length)) := by
  obtain ⟨hd, hhead, hlength⟩ := decode_ok_head hdec
  have hpos : 0 < hd.length := by cases hd <;> exact Nat.succ_pos _
  rw [hlength] at hlim ⊢
  rw [decodeStep_eq (by omega), hhead]
  simp only [fetchParams_of_decode hhead hlim hdec, bind_ok]

/-- Settles O28: the decode reads the Words that `decode` is given, and changes what is named for it alone. -/
theorem stepRunsDecodedInstruction : Obligations.StepRunsDecodedInstruction := by
  intro s i rest hf hp hlim hdec
  obtain ⟨m, hframe⟩ : ∃ m, s.fetched i.length = (s.setPc (s.pc + i.length)).setOverlay m :=
    ⟨_, fetched_frame s i.length⟩
  rw [afterDecode_eq]
  refine ⟨?_, by simp [hframe], rfl, by simp [hframe], by simp [hframe], by simp [hframe], by simp [hframe, hf],
    fun a => (decodeFlags_wordAt i _ a).trans (fetched_wordAt s _ a)⟩
  rw [step_eq hf, tick_decode hp (decodeStep_of_decode hlim hdec)]

/-- A step that fetches a rejected instruction word (R16, R151). -/
theorem rejectsWord_of_decodeHead {s : State} {e : HeadError} {c : Cause} (hf : s.fault = none)
    (hp : s.pending = false) (hpc : s.pc < s.cfg.memLimit) (he : decodeHead (s.wordAt s.pc) = .error e)
    (ht : trapOfHead e = { cause := c, info := s.wordAt s.pc }) : RejectsWord s c := by
  have hraise : decodeStep s = .raise { cause := c, info := s.wordAt s.pc } (s.fetched 1) := by
    rw [decodeStep_eq hpc, he, ← ht]
  refine ⟨_, step_of_decode_raise hf hp hraise, ?_, fetched_wordAt s 1⟩
  rw [fetched_frame]
  rfl

/-- Settles O30: the words the decoder rejects, each with the trap of its error. -/
theorem badInstructionWordFaults : Obligations.BadInstructionWordFaults := by
  intro s hf hp hpc
  obtain ⟨hrange, hopcode, hmode, -⟩ := headRejectsExactlyIllFormed
  refine ⟨fun h => ?_, fun n hw hn hk => ?_, fun n k hw hn hk hbad => ?_⟩
  · exact rejectsWord_of_decodeHead hf hp hpc (hrange _ h) rfl
  · exact rejectsWord_of_decodeHead hf hp hpc (hw ▸ hopcode n hn hk) rfl
  · exact rejectsWord_of_decodeHead hf hp hpc (hw ▸ hmode n k hn hk hbad) rfl

end Sys2Proof.Machine
end

section
/-! SUPPORT. 30_encoding.md R76: a destination in `Immediate` mode. -/

namespace Sys2Proof.Machine

theorem touchTwo_sameButReads (s : State) (a b : Operand) : SameButReads s ((s.touchOp a).touchOp b) := by
  obtain ⟨hframe, hcells⟩ := touchTwo_frame s a b
  exact ⟨hframe, wordAt_congr hcells (by rw [hframe]; rfl)⟩

/-- Two sources that read give their result, which an `Immediate` destination discards (R46, R76). -/
theorem twoSources_immediate {f : Config → Int → Int → Except Trap Word} {s : State} {a b : Operand}
    {x y r : Word} (hx : operandVal s a = .ok x) (hy : operandVal s b = .ok y) (hr : f s.cfg x y = .ok r) (w : Word) :
    twoSources f a b (.immediate w) s = .ok () ((s.touchOp a).touchOp b) := by
  simp only [twoSources_eq, hx, hy, hr, ea]

/-- Settles O25: the two reads are all that is left of the four instructions, and consuming the Word all that is left
of `In`. -/
theorem immediateDestinationDiscardsWrite : Obligations.ImmediateDestinationDiscardsWrite := by
  intro s a b w
  refine ⟨fun x y hx hy => ?_, fun v hv => ?_⟩
  · have hexec (i : Instr) (f : Config → Int → Int → Except Trap Word) (r : Word) (hr : f s.cfg x y = .ok r) :
        ∃ t, conclude i s (twoSources f a b (.immediate w) s) = .next t ∧ SameButReads s t :=
      ⟨_, by rw [twoSources_immediate hx hy hr, conclude_ok], touchTwo_sameButReads s a b⟩
    exact ⟨fun r hr => hexec _ _ r (narrow_of_narrowsTo hr), fun r hr => hexec _ _ r (narrow_of_narrowsTo hr),
      hexec _ _ _ rfl, hexec _ _ _ rfl⟩
  · simp only [exec, execIn, hv, writeOp, conclude_ok]

end Sys2Proof.Machine
end

section
/-! SUPPORT. 30_encoding.md R91: the program text. Its parts on both sides of a comma, and what a token reads as. -/

namespace Sys2Proof.Machine

/-! ## The parts of a text -/

theorem splitCommas_ne_nil (t : List Char) : splitCommas t ≠ [] := by
  cases t with
  | nil => simp [splitCommas]
  | cons c r =>
    rw [splitCommas]
    split
    · simp
    · split <;> simp

/-- A comma ends a part, whatever stands before it. -/
theorem splitCommas_append (t u : List Char) : splitCommas (t ++ ',' :: u) = splitCommas t ++ splitCommas u := by
  induction t with
  | nil => rfl
  | cons c r ih =>
    by_cases hc : c = ','
    · simp [splitCommas, hc, ih]
    · obtain ⟨p, ps, hp⟩ := List.exists_cons_of_ne_nil (splitCommas_ne_nil r)
      simp [splitCommas, hc, ih, hp]

theorem splitCommas_of_notMem {t : List Char} (h : ',' ∉ t) : splitCommas t = [t] := by
  induction t with
  | nil => rfl
  | cons c r ih =>
    rw [List.mem_cons, not_or] at h
    obtain ⟨hc, hr⟩ := h
    simp [splitCommas, Ne.symm hc, ih hr]

/-! ## The value of a token without its blanks -/

theorem digitValue_eq_some {c : Char} {d : Nat} : digitValue c = some d ↔ isDigit c = true ∧ d = c.toNat - 48 := by
  rw [digitValue, Option.ite_none_right_eq_some, Option.some_inj, isDigit, Bool.and_eq_true, decide_eq_true_iff,
    decide_eq_true_iff, eq_comm (a := d)]

theorem digitsFrom_eq_some {ds : List Char} {acc n : Nat} : digitsFrom acc ds = some n ↔
    ds.all isDigit = true ∧ n = ds.foldl (fun acc c => acc * 10 + (c.toNat - 48)) acc := by
  induction ds generalizing acc with
  | nil => simp [digitsFrom, eq_comm]
  | cons c r ih =>
    rw [digitsFrom]
    cases hd : digitValue c with
    | none =>
      have hc : isDigit c ≠ true := fun h => by simp [digitValue_eq_some.mpr ⟨h, rfl⟩] at hd
      simp [hc]
    | some d =>
      obtain ⟨hc, rfl⟩ := digitValue_eq_some.mp hd
      simp [hc, ih]

theorem digitsValue_eq_some {ds : List Char} {n : Nat} :
    digitsValue ds = some n ↔ ds ≠ [] ∧ ds.all isDigit = true ∧ n = numeral ds := by
  cases ds with
  | nil => simp [digitsValue]
  | cons c r => simp [digitsValue, digitsFrom_eq_some, numeral]

/-- The text is an optional sign and one or more decimal digits, of value `v` (R91). -/
def SignedNumeral (t : List Char) (v : Int) : Prop :=
  ∃ sgn ds, t = sgn ++ ds ∧ ds ≠ [] ∧ ds.all isDigit = true ∧
    ((sgn = [] ∧ v = numeral ds) ∨ (sgn = ['+'] ∧ v = numeral ds) ∨ (sgn = ['-'] ∧ v = -(numeral ds : Int)))

theorem SignedNumeral.of_digitsValue {t sgn ds : List Char} {n : Nat} {v : Int} (hn : digitsValue ds = some n)
    (ht : t = sgn ++ ds) (hv : (sgn = [] ∧ v = n) ∨ (sgn = ['+'] ∧ v = n) ∨ (sgn = ['-'] ∧ v = -(n : Int))) :
    SignedNumeral t v := by
  obtain ⟨hne, hds, rfl⟩ := digitsValue_eq_some.mp hn
  exact ⟨sgn, ds, ht, hne, hds, hv⟩

/-- A token reads as a number when it is that number with blanks around it (R91). -/
theorem readsAs_iff {t : List Char} {v : Int} : ReadsAs t v ↔ ∃ pre core post, t = pre ++ core ++ post ∧
    pre.all isBlank = true ∧ post.all isBlank = true ∧ SignedNumeral core v := by
  constructor
  · rintro ⟨pre, sgn, ds, post, rfl, hpre, hpost, hne, hds, hv⟩
    exact ⟨pre, sgn ++ ds, post, by simp, hpre, hpost, sgn, ds, rfl, hne, hds, hv⟩
  · rintro ⟨pre, core, post, rfl, hpre, hpost, sgn, ds, rfl, hne, hds, hv⟩
    exact ⟨pre, sgn, ds, post, by simp, hpre, hpost, hne, hds, hv⟩

theorem tokenValue_eq_some {t : List Char} {v : Int} : tokenValue t = some v ↔ SignedNumeral t v := by
  constructor
  · intro h
    cases t with
    | nil => cases h
    | cons c r =>
      rw [tokenValue] at h
      split_ifs at h with hminus hplus <;> obtain ⟨n, hn, rfl⟩ := Option.map_eq_some_iff.mp h
      · exact .of_digitsValue (sgn := ['-']) hn (by rw [hminus]; rfl) (.inr (.inr ⟨rfl, rfl⟩))
      · exact .of_digitsValue (sgn := ['+']) hn (by rw [hplus]; rfl) (.inr (.inl ⟨rfl, rfl⟩))
      · exact .of_digitsValue (sgn := []) hn rfl (.inl ⟨rfl, rfl⟩)
  · rintro ⟨sgn, ds, rfl, hne, hds, hv⟩
    have hn : digitsValue ds = some (numeral ds) := digitsValue_eq_some.mpr ⟨hne, hds, rfl⟩
    rcases hv with ⟨rfl, rfl⟩ | ⟨rfl, rfl⟩ | ⟨rfl, rfl⟩
    · obtain ⟨c, r, rfl⟩ := List.exists_cons_of_ne_nil hne
      have hc : isDigit c = true := List.all_eq_true.mp hds c List.mem_cons_self
      have hminus : c ≠ '-' := by rintro rfl; exact absurd hc (by decide)
      have hplus : c ≠ '+' := by rintro rfl; exact absurd hc (by decide)
      simp [tokenValue, hminus, hplus, hn]
    · simp [tokenValue, hn]
    · simp [tokenValue, hn]

/-! ## Blanks -/

theorem isBlank_of_isDigit {c : Char} (h : isDigit c = true) : isBlank c = false := by
  rw [← Bool.not_eq_true]
  simp only [isDigit, isBlank, Bool.or_eq_true, Bool.and_eq_true, decide_eq_true_eq, beq_iff_eq] at h ⊢
  omega

/-- What `trimBlanks_append` asks of a number (R91). -/
theorem SignedNumeral.no_blank {t : List Char} {v : Int} (h : SignedNumeral t v) :
    t ≠ [] ∧ ∀ c ∈ t, isBlank c = false := by
  obtain ⟨sgn, ds, rfl, hne, hds, hv⟩ := h
  refine ⟨by simp [hne], fun c hc => ?_⟩
  rcases List.mem_append.mp hc with hs | hd
  · rcases hv with ⟨rfl, -⟩ | ⟨rfl, -⟩ | ⟨rfl, -⟩
    · cases hs
    · rw [List.mem_singleton.mp hs]; decide
    · rw [List.mem_singleton.mp hs]; decide
  · exact isBlank_of_isDigit (List.all_eq_true.mp hds c hd)

/-- Dropping leading blanks ends at the first character that is none. -/
theorem dropWhile_blank_append {pre core : List Char} (post : List Char) (hpre : pre.all isBlank = true)
    (hne : core ≠ []) (hcore : ∀ c ∈ core, isBlank c = false) :
    (pre ++ core ++ post).dropWhile isBlank = core ++ post := by
  obtain ⟨c, r, rfl⟩ := List.exists_cons_of_ne_nil hne
  rw [List.append_assoc, List.dropWhile_append_of_pos (List.all_eq_true.mp hpre)]
  exact List.dropWhile_cons_of_neg (by simp [hcore c List.mem_cons_self])

theorem trimBlanks_append {pre core post : List Char} (hpre : pre.all isBlank = true) (hpost : post.all isBlank = true)
    (hne : core ≠ []) (hcore : ∀ c ∈ core, isBlank c = false) : trimBlanks (pre ++ core ++ post) = core := by
  have hback : (core ++ post).reverse.dropWhile isBlank = core.reverse := by
    simpa using dropWhile_blank_append (pre := post.reverse) (core := core.reverse) [] (by simpa using hpost)
      (by simpa using hne) (by simpa using hcore)
  rw [trimBlanks, dropWhile_blank_append post hpre hne hcore, hback, List.reverse_reverse]

/-- Trimming takes blanks alone away. -/
theorem exists_blanks_trimBlanks (t : List Char) : ∃ pre post, t = pre ++ trimBlanks t ++ post ∧
    pre.all isBlank = true ∧ post.all isBlank = true := by
  refine ⟨t.takeWhile isBlank, (t.dropWhile isBlank).rtakeWhile isBlank, ?_, List.all_takeWhile, ?_⟩
  · have hback : trimBlanks t ++ (t.dropWhile isBlank).rtakeWhile isBlank = t.dropWhile isBlank :=
      List.rdropWhile_append_rtakeWhile
    rw [List.append_assoc, hback, List.takeWhile_append_dropWhile]
  · exact List.all_eq_true.mpr fun c hc => List.mem_rtakeWhile_imp hc

theorem tokenValue_trimBlanks {t : List Char} {v : Int} : tokenValue (trimBlanks t) = some v ↔ ReadsAs t v := by
  rw [tokenValue_eq_some, readsAs_iff]
  constructor
  · intro h
    obtain ⟨pre, post, ht, hpre, hpost⟩ := exists_blanks_trimBlanks t
    exact ⟨pre, _, post, ht, hpre, hpost, h⟩
  · rintro ⟨pre, core, post, rfl, hpre, hpost, h⟩
    obtain ⟨hne, hcore⟩ := h.no_blank
    rwa [trimBlanks_append hpre hpost hne hcore]

theorem tokenWord_eq_some {w : Width} {t : List Char} {v : Int} :
    tokenWord w t = some v ↔ tokenValue (trimBlanks t) = some v ∧ w.fits v = true := by
  rw [tokenWord]
  cases tokenValue (trimBlanks t) with
  | none => simp
  | some u =>
    rw [Option.ite_none_right_eq_some, Option.some_inj]
    exact ⟨fun ⟨hu, he⟩ => ⟨he, he ▸ hu⟩, fun ⟨he, hv⟩ => ⟨he ▸ hv, he⟩⟩

/-- Settles O49: the text is split at its commas, and a token is trimmed, read and checked against the range. -/
theorem programTextLoadsItsTokens : Obligations.ProgramTextLoadsItsTokens := by
  refine ⟨fun w t u => ?_, fun w t ht => ?_, fun w t v => ?_⟩
  · rw [parse, splitCommas_append, List.filterMap_append, parse, parse]
  · rw [parse, splitCommas_of_notMem ht]
    cases h : tokenWord w t <;> simp [h]
  · rw [tokenWord_eq_some, tokenValue_trimBlanks]

end Sys2Proof.Machine
end

section
/-! SUPPORT. 40_arithmetic.md: `Add` and `Mul` (R100, R101), through the rule of two sources and a destination. -/

namespace Sys2Proof.Machine

/-- Entering the fault state after nothing but reads (R16, R152). -/
theorem SameButReads.takeFault_faultsOnly {s t : State} (h : SameButReads s t) (loc : Nat) (tr : Trap) :
    FaultsOnly s (takeFault (some loc) tr t) loc tr := by
  obtain ⟨hframe, hwords⟩ := h
  exact ⟨congrArg (State.setFault · _) hframe, hwords⟩

/-- With no destination nothing is stored. -/
theorem SameButReads.storesOnly_none {s t : State} (h : SameButReads s t) (r : Word) : StoresOnly s t none r := h

/-- A store after nothing but reads. -/
theorem SameButReads.storesOnly_stored {s t : State} (h : SameButReads s t) (a : Nat) (r : Word) :
    StoresOnly s (t.stored a r) (some a) r := by
  obtain ⟨hframe, hwords⟩ := h
  obtain ⟨hstored, hcell⟩ := stored_storesOnly t a r
  refine ⟨?_, fun b => by rw [hcell, hwords]⟩
  calc t.stored a r = t.setOverlay (t.stored a r).overlay := hstored
    _ = (s.setOverlay t.overlay).setOverlay (t.stored a r).overlay := congrArg (State.setOverlay · _) hframe

/-- The instruction `mk` computes `f` of two sources, without a decode-time flag (R88, R100, R101, R130, R131). -/
structure TwoSourceInstr (mk : Operand → Operand → Operand → Instr)
    (f : Config → Int → Int → Except Trap Word) : Prop where
  flags : ∀ (s : State) (a b c : Operand), decodeFlags (mk a b c) s = s
  length : ∀ a b c : Operand, (mk a b c).length = 4
  exec_eq : ∀ (s : State) (a b c : Operand), exec (mk a b c) s = conclude (mk a b c) s (twoSources f a b c s)

section
variable {mk : Operand → Operand → Operand → Instr} {f : Config → Int → Int → Except Trap Word} {s t : State}
  {a b c : Operand}

/-- A trap of the two sources, their result or the destination is recorded at the instruction's own address (R152). -/
theorem TwoSourceInstr.faults (h : TwoSourceInstr mk f) {tr : Trap} (ht : SameButReads s t)
    (hraise : twoSources f a b c s = .raise tr t) :
    ∃ u, exec (mk a b c) s = .next u ∧ FaultsOnly s u (s.pc - 4) tr :=
  ⟨_, by rw [h.exec_eq, hraise, conclude_raise, h.length], ht.takeFault_faultsOnly _ _⟩

/-- Two sources and a destination without a trap: the result is stored there (R46, R76). -/
theorem TwoSourceInstr.stores (h : TwoSourceInstr mk f) {x y r : Word} {d : Option Nat}
    (hx : operandVal s a = .ok x) (hy : operandVal s b = .ok y) (hr : f s.cfg x y = .ok r) (hd : ea s c = .ok d) :
    ∃ u, exec (mk a b c) s = .next u ∧ StoresOnly s u d r := by
  have hreads := touchTwo_sameButReads s a b
  rw [h.exec_eq]
  cases d with
  | none => exact ⟨_, by simp only [twoSources_eq, hx, hy, hr, hd, conclude_ok], hreads.storesOnly_none r⟩
  | some d => exact ⟨_, by simp only [twoSources_eq, hx, hy, hr, hd, conclude_ok], hreads.storesOnly_stored d r⟩

/-- A result that traps does so after both sources were read, before the destination (D30). -/
theorem TwoSourceInstr.result_faults (h : TwoSourceInstr mk f) {x y : Word} {tr : Trap}
    (hx : operandVal s a = .ok x) (hy : operandVal s b = .ok y) (hr : f s.cfg x y = .error tr) :
    ∃ u, exec (mk a b c) s = .next u ∧ FaultsOnly s u (s.pc - 4) tr :=
  h.faults (touchTwo_sameButReads s a b) (by simp only [twoSources_eq, hx, hy, hr])

end

/-- The clauses of the rule are the cases of `twoSources_eq`, in its order. -/
theorem TwoSourceInstr.rule {mk : Operand → Operand → Operand → Instr} {f : Config → Int → Int → Except Trap Word}
    {yields : Config → Int → Int → Word → Prop} (h : TwoSourceInstr mk f)
    (hf : ∀ {cfg x y r}, yields cfg x y r → f cfg x y = .ok r) : TwoSourceRule mk yields := by
  refine fun s a b c => ⟨h.flags s a b c, fun tr ht => ?_, fun x tr hx ht => ?_, fun x y r tr hx hy hr ht => ?_,
    fun x y r d hx hy hr hd => h.stores hx hy (hf hr) hd⟩
  · exact h.faults ⟨rfl, fun _ => rfl⟩ (by simp only [twoSources_eq, ht])
  · exact h.faults (touchOp_sameButReads s a) (by simp only [twoSources_eq, hx, ht])
  · exact h.faults (touchTwo_sameButReads s a b) (by simp only [twoSources_eq, hx, hy, hf hr, ht])

/-- A result that is narrowed overflows by the rule (R14). -/
theorem TwoSourceInstr.overflowRule {mk : Operand → Operand → Operand → Instr} {res : Int → Int → Int}
    (h : TwoSourceInstr mk fun cfg x y => narrow cfg (res x y)) : OverflowRule mk res :=
  fun _ _ _ _ _ _ hx hy hfits hov => h.result_faults hx hy (narrow_fault hfits hov)

theorem add_twoSourceInstr : TwoSourceInstr .add wadd :=
  ⟨fun _ _ _ _ => rfl, fun _ _ _ => rfl, fun _ _ _ _ => rfl⟩

theorem mul_twoSourceInstr : TwoSourceInstr .mul wmul :=
  ⟨fun _ _ _ _ => rfl, fun _ _ _ => rfl, fun _ _ _ _ => rfl⟩

/-- Settles O15: `Add` is the instruction of two sources whose result is their narrowed sum. -/
theorem addFollowsItsRule : Obligations.AddFollowsItsRule :=
  ⟨add_twoSourceInstr.rule narrow_of_narrowsTo, add_twoSourceInstr.overflowRule, encode_build3 .add⟩

/-- Settles O16: `Mul` is the instruction of two sources whose result is their narrowed product. -/
theorem mulFollowsItsRule : Obligations.MulFollowsItsRule :=
  ⟨mul_twoSourceInstr.rule narrow_of_narrowsTo, mul_twoSourceInstr.overflowRule, encode_build3 .mul⟩

end Sys2Proof.Machine
end

section
/-! SUPPORT. 41_io.md: `In` and `Out` (R110, R111). -/

namespace Sys2Proof.Machine

/-! ## What a pass with a raised flag returns -/

section
variable {s : State} (hf : s.fault = none) (hh : s.fHalted = false)
include hf hh

/-- With the input flag raised `run()` returns `Input` (R163). -/
theorem endPass_await (hw : s.fAwaitIn = true) : endPass s = .next (s.setRet (some .input)) := by
  simp only [endPass, hf, suspend, hh, hw, Bool.false_eq_true, if_false, if_true]

/-- With the output flag alone raised `run()` hands the Word over (R163, R165). -/
theorem endPass_output (hw : s.fAwaitIn = false) (ho : s.fHasOut = true) {v : Word} (hv : s.outReg = some v) :
    endPass s = .next (((s.setOutReg none).setHasOut false).setRet (some (.output v))) := by
  simp only [endPass, hf, suspend, hh, hw, ho, hv, Bool.false_eq_true, if_false, if_true]

end

/-! ## `In` -/

section
variable {s : State} {a : Operand}

/-- The Word is consumed before the destination is written (R110). -/
theorem exec_inp_of_inReg {v : Word} (hv : s.inReg = some v) :
    exec (.inp a) s = conclude (.inp a) s (writeOp a v ((s.setInReg none).setAwaitIn false)) := by
  simp only [exec, execIn, hv]

theorem exec_inp_of_no_input (hin : s.inReg = none) : exec (.inp a) s = .next s := by
  simp only [exec, execIn, hin]

/-- The destination's address does not depend on the Word consumed (R45). -/
theorem ea_consumed (s : State) (a : Operand) : ea ((s.setInReg none).setAwaitIn false) a = ea s a :=
  ea_congr rfl rfl a

theorem exec_inp_stores {v : Word} {d : Option Nat} (hv : s.inReg = some v) (hd : ea s a = .ok d) :
    ∃ t, exec (.inp a) s = .next t ∧ StoresOnly ((s.setInReg none).setAwaitIn false) t d v := by
  rw [exec_inp_of_inReg hv, writeOp_eq, ea_consumed, hd]
  cases d with
  | none => exact ⟨_, conclude_ok _ _ _, rfl, fun _ => rfl⟩
  | some d => exact ⟨_, conclude_ok _ _ _, stored_storesOnly _ d v⟩

theorem exec_inp_faults {v : Word} {tr : Trap} (hv : s.inReg = some v) (ht : ea s a = .error tr) :
    exec (.inp a) s = .next (takeFault (some (s.pc - 2)) tr ((s.setInReg none).setAwaitIn false)) := by
  rw [exec_inp_of_inReg hv, writeOp_eq, ea_consumed, ht, conclude_raise]
  rfl

/-- While its flag is raised, a step executes the `In` in `cur` again (R160). -/
theorem step_pending_inp (hf : s.fault = none) (hw : s.fAwaitIn = true) (hc : s.cur = some (.inp a)) :
    step s = afterTick (exec (.inp a) s) := by
  have hp : s.pending = true := by simp [State.pending, hw]
  rw [step_eq hf, tick_pending hp hc]

end

/-- A poke, done, refused or faulting, leaves the decoded instruction as it was (R160, R168). -/
theorem hostOp_poke_cur (n b : Nat) (v : Word) (s : State) : (hostOp n (.poke b v) s).2.cur = s.cur := by
  cases hf : s.fault with
  | some r => rw [hostOp_faulted hf]
  | none =>
    rw [hostOp_healthy hf]
    refine betweenRuns_induction (P := fun t => t.cur = s.cur) rfl ?_
    rcases Nat.lt_or_ge b s.cfg.memLimit with hb | hb
    · rw [pokeState, memWrite_ok hb]
      rfl
    · rw [pokeState, memWrite_raise hb]
      rfl

/-- Settles O19: a Word present is consumed and stored; without one the pending `In` is executed again. -/
theorem inFollowsItsRule : Obligations.InFollowsItsRule := by
  refine fun s a => ⟨encode_build1 .inp a, rfl, fun v d => exec_inp_stores, fun v tr => exec_inp_faults,
    exec_inp_of_no_input, fun n b v => hostOp_poke_cur n b v s, step_pending_inp, fun hf hw hh hc hin => ?_⟩
  rw [step_pending_inp hf hw hc, exec_inp_of_no_input hin, afterTick, endPass_await hf hh hw]

/-! ## `Out` -/

/-- Writing the output register commutes with reads: no read looks at it (R55). -/
theorem SameButReads.setOutReg {s t : State} (h : SameButReads s t) (v : Option Word) :
    SameButReads (s.setOutReg v) (t.setOutReg v) := by
  obtain ⟨hframe, hwords⟩ := h
  exact ⟨congrArg (State.setOutReg · v) hframe, hwords⟩

section
variable {s : State} {a : Operand}

theorem exec_out_of_operandVal {v : Word} (hv : operandVal s a = .ok v) :
    exec (.out a) s = .next ((s.touchOp a).setOutReg (some v)) := by
  simp only [exec, execOut, readOp_eq, hv, bind_ok, conclude_ok]

theorem exec_out_faults {tr : Trap} (ht : operandVal s a = .error tr) :
    exec (.out a) s = .next (takeFault (some (s.pc - 2)) tr s) := by
  simp only [exec, execOut, readOp_eq, ht, bind_raise, conclude_raise, Instr.length]

/-- The hand-over sees the flags as they were before `Out` (R111, R165). -/
theorem SameButReads.endPass_output {t : State} {v : Word} (h : SameButReads (s.setOutReg (some v)) t)
    (hf : s.fault = none) (ho : s.fHasOut = true) (hw : s.fAwaitIn = false) (hh : s.fHalted = false) :
    endPass t = .next (((t.setOutReg none).setHasOut false).setRet (some (.output v))) := by
  obtain ⟨hframe, -⟩ := h
  refine Machine.endPass_output ?_ ?_ ?_ ?_ ?_
  all_goals rw [hframe]
  exacts [hf, hh, hw, ho, rfl]

end

/-- Settles O20: a value read goes to the output register, which every machine has empty when `Out` executes. -/
theorem outFollowsItsRule : Obligations.OutFollowsItsRule := by
  refine fun s a => ⟨encode_build1 .out a, rfl, fun v hv => ?_, fun tr ht => ?_, fun ⟨_, hflags⟩ hf => ?_⟩
  · have hreads := (touchOp_sameButReads s a).setOutReg (some v)
    exact ⟨_, exec_out_of_operandVal hv, hreads, hreads.endPass_output⟩
  · have hself : SameButReads s s := ⟨rfl, fun _ => rfl⟩
    exact ⟨_, exec_out_faults ht, hself.takeFault_faultsOnly _ _⟩
  · obtain ⟨-, hreg, -⟩ := (flagsOk_iff s).mp (hflags hf)
    exact hreg

end Sys2Proof.Machine
end

section
/-! SUPPORT. 30_encoding.md: Words written out in the spec (R66, R92). -/

namespace Sys2Proof

/-- Words that spell an instruction decode to it, with nothing left over. -/
theorem decode_of_encode_eq {i : Instr} {ws : List Word} (h : encode i = ws) : decode ws = .ok (i, []) := by
  rw [← h, ← List.append_nil (encode i)]
  exact decodeOfEncodeIsInstr i []

/-- Settles O5: the Words are those the encoder gives each instruction (R92). -/
theorem writtenWordsDecode : Obligations.WrittenWordsDecode :=
  ⟨decode_of_encode_eq rfl, decode_of_encode_eq rfl, decode_of_encode_eq rfl, decode_of_encode_eq rfl,
    decode_of_encode_eq rfl, decode_of_encode_eq rfl, decode_of_encode_eq rfl, decode_of_encode_eq rfl,
    decode_of_encode_eq rfl, decode_of_encode_eq rfl⟩

end Sys2Proof
end

section
/-! SUPPORT. 42_jumps.md: `JumpIfTrue` and `JumpIfFalse` (R120, R121), through the rule of a conditional jump. -/

namespace Sys2Proof.Machine

/-! ## What a jump does -/

/-- Everything a conditional jump can do: the traps in the order of its operands, the fall through, and the target,
which is converted only when the jump is taken (R120, R121; D11). -/
theorem jumpWhen_eq (taken : Int → Bool) (a b : Operand) (s : State) :
    jumpWhen taken a b s = match operandVal s a with
      | .error t => .raise t s
      | .ok x => match operandVal s b with
        | .error t => .raise t (s.touchOp a)
        | .ok y => if taken x then
            match addrOf s.cfg y with
            | .error t => .raise t ((s.touchOp a).touchOp b)
            | .ok p => .ok () (((s.touchOp a).touchOp b).setPc p)
          else .ok () ((s.touchOp a).touchOp b) := by
  obtain ⟨hframe, -⟩ := touchTwo_frame s a b
  have hcfg : ((s.touchOp a).touchOp b).cfg = s.cfg := by rw [hframe]; rfl
  simp only [jumpWhen, readOp_eq]
  cases operandVal s a with
  | error t => rfl
  | ok x =>
    simp only [bind_ok, operandVal_touchOp]
    cases operandVal s b with
    | error t => rfl
    | ok y =>
      simp only [bind_ok, hcfg]
      cases addrOf s.cfg y <;> rfl

/-- Writing `pc` commutes with reads: no read looks at it (R55). -/
theorem SameButReads.setPc {s t : State} (h : SameButReads s t) (p : Nat) : SameButReads (s.setPc p) (t.setPc p) := by
  obtain ⟨hframe, hwords⟩ := h
  exact ⟨congrArg (State.setPc · p) hframe, hwords⟩

/-- The instruction `mk` is a jump on the condition Words of `taken`, which `cond` tests, without a decode-time flag
(R88, R120, R121). -/
structure JumpInstr (mk : Operand → Operand → Instr) (cond : Int → Bool) (taken : Int → Prop) : Prop where
  flags : ∀ (s : State) (a b : Operand), decodeFlags (mk a b) s = s
  length : ∀ a b : Operand, (mk a b).length = 3
  exec_eq : ∀ (s : State) (a b : Operand), exec (mk a b) s = conclude (mk a b) s (jumpWhen cond a b s)
  cond_iff : ∀ x, cond x = true ↔ taken x

section
variable {mk : Operand → Operand → Instr} {cond : Int → Bool} {taken : Int → Prop} {s t : State} {a b : Operand}

/-- A trap of the operands or the target is recorded at the instruction's own address (R152). -/
theorem JumpInstr.faults (h : JumpInstr mk cond taken) {tr : Trap} (ht : SameButReads s t)
    (hraise : jumpWhen cond a b s = .raise tr t) : ∃ u, exec (mk a b) s = .next u ∧ FaultsOnly s u (s.pc - 3) tr :=
  ⟨_, by rw [h.exec_eq, hraise, conclude_raise, h.length], ht.takeFault_faultsOnly _ _⟩

theorem JumpInstr.exec_of_ok (h : JumpInstr mk cond taken) (hok : jumpWhen cond a b s = .ok () t) :
    exec (mk a b) s = .next t := by
  rw [h.exec_eq, hok, conclude_ok]

/-- A jump that is taken to a legal address (R120, R121). -/
theorem JumpInstr.jumps (h : JumpInstr mk cond taken) {x : Word} {p : Nat} (hx : operandVal s a = .ok x)
    (hy : operandVal s b = .ok (p : Int)) (htaken : taken x) (hp : p < s.cfg.memLimit) :
    ∃ u, exec (mk a b) s = .next u ∧ SameButReads (s.setPc p) u :=
  ⟨_, h.exec_of_ok (by simp only [jumpWhen_eq, hx, hy, h.cond_iff, htaken, if_true, addrOf_natCast hp]),
    (touchTwo_sameButReads s a b).setPc p⟩

end

/-- The clauses of the rule are the cases of `jumpWhen_eq`, in its order. -/
theorem JumpInstr.rule {mk : Operand → Operand → Instr} {cond : Int → Bool} {taken : Int → Prop}
    (h : JumpInstr mk cond taken) : JumpRule mk taken := by
  intro s a b
  have hreads := touchTwo_sameButReads s a b
  refine ⟨h.flags s a b, fun tr ht => ?_, fun x tr hx ht => ?_, fun x y hx hy hn => ?_,
    fun x y hx hy htaken hbad => ?_, fun x p => h.jumps⟩
  · exact h.faults ⟨rfl, fun _ => rfl⟩ (by simp only [jumpWhen_eq, ht])
  · exact h.faults (touchOp_sameButReads s a) (by simp only [jumpWhen_eq, hx, ht])
  · exact ⟨_, h.exec_of_ok (by simp only [jumpWhen_eq, hx, hy, h.cond_iff, hn, if_false]), hreads⟩
  · exact h.faults hreads (by simp only [jumpWhen_eq, hx, hy, h.cond_iff, htaken, if_true, addrOf_error hbad])

/-! ## A taken jump to its own address -/

/-- What every step keeps, and keeps without a fault or a result, a `run()` goes on with for good (R171). -/
theorem runHangs_of_invariant {P : State → Prop}
    (hstep : ∀ s, P s → ∃ t, step s = .next t ∧ t.fault = none ∧ t.ret = none ∧ P t) {s : State} (hs : P s) :
    RunHangs s := by
  intro n
  induction n generalizing s with
  | zero => rfl
  | succ n ih =>
    obtain ⟨t, ht, hf, hr, hP⟩ := hstep s hs
    simp only [runFor, ht, hf, hr, ih hP]

/-- With no flag raised `run()` goes on (R163). -/
theorem endPass_idle {s : State} (hf : s.fault = none) (hp : s.pending = false) :
    endPass s = .next (s.setRet none) := by
  simp only [State.pending, Bool.or_eq_false_iff] at hp
  obtain ⟨⟨hw, ho⟩, hh⟩ := hp
  simp only [endPass, hf, suspend, hh, hw, ho, Bool.false_eq_true, if_false]

theorem SameButReads.trans {s t u : State} (h : SameButReads s t) (h' : SameButReads t u) : SameButReads s u := by
  obtain ⟨hframe, hwords⟩ := h
  obtain ⟨hframe', hwords'⟩ := h'
  refine ⟨?_, fun a => (hwords' a).trans (hwords a)⟩
  calc u = t.setOverlay u.overlay := hframe'
    _ = s.setOverlay u.overlay := by rw [hframe]; rfl

/-- The value of an operand is the same in every state that agrees on the configuration, `rb` and what every address
reads as (R45, R46). -/
theorem operandVal_of_wordAt_eq {s t : State} (hc : t.cfg = s.cfg) (hr : t.rb = s.rb)
    (hw : ∀ a, t.wordAt a = s.wordAt a) (o : Operand) : operandVal t o = operandVal s o := by
  rw [operandVal_eq_ea, operandVal_eq_ea, ea_congr hc hr, funext hw]

/-- The decode of an instruction without a flag moves `pc` behind it and records it, and nothing else (R84, R88). -/
theorem afterDecode_sameButReads {i : Instr} (hflags : ∀ t, decodeFlags i t = t) (s : State) :
    SameButReads ((s.setPc (s.pc + i.length)).setCur (some i)) (s.afterDecode i) := by
  rw [afterDecode_eq, hflags]
  exact ⟨congrArg (State.setCur · (some i)) (fetched_frame s _), fetched_wordAt s _⟩

/-- The machine is about to fetch the jump `mk a b`, which will be taken to its own address. -/
structure State.AtSelfJump (mk : Operand → Operand → Instr) (taken : Int → Prop) (a b : Operand) (s : State) :
    Prop where
  healthy : s.fault = none
  idle : s.pending = false
  below : s.pc + 3 ≤ s.cfg.memLimit
  decodes : ∃ rest, decode (s.wordsAt s.pc) = .ok (mk a b, rest)
  condition : ∃ x, operandVal s a = .ok x ∧ taken x
  target : operandVal s b = .ok (s.pc : Int)

section
variable {mk : Operand → Operand → Instr} {cond : Int → Bool} {taken : Int → Prop} {a b : Operand} {s t : State}

/-- Nothing the jump depends on is in `cur` or in what `run()` returned. -/
theorem State.AtSelfJump.congr (h : s.AtSelfJump mk taken a b) {c : Option Instr} {r : Option Interrupt}
    (ht : SameButReads ((s.setCur c).setRet r) t) : t.AtSelfJump mk taken a b := by
  obtain ⟨hframe, hwords⟩ := ht
  have hval : ∀ o, operandVal t o = operandVal s o :=
    operandVal_of_wordAt_eq (by rw [hframe]; rfl) (by rw [hframe]; rfl) hwords
  have hpc : t.pc = s.pc := by rw [hframe]; rfl
  have hwordsAt : t.wordsAt s.pc = s.wordsAt s.pc := by simp only [State.wordsAt, hwords]; rfl
  refine ⟨?_, ?_, ?_, ?_, ?_, ?_⟩
  · rw [hframe]; exact h.healthy
  · rw [hframe]; exact h.idle
  · rw [hframe]; exact h.below
  · rw [hpc, hwordsAt]; exact h.decodes
  · rw [hval]; exact h.condition
  · rw [hval, hpc]; exact h.target

/-- A jump taken right after its decode: only `pc` and `cur` differ from before the decode (R84, R120, R121). -/
theorem JumpInstr.jumps_afterDecode (h : JumpInstr mk cond taken) {x : Word} {p : Nat} (hx : operandVal s a = .ok x)
    (hy : operandVal s b = .ok (p : Int)) (htaken : taken x) (hp : p < s.cfg.memLimit) :
    ∃ t, exec (mk a b) (s.afterDecode (mk a b)) = .next t ∧ SameButReads ((s.setPc p).setCur (some (mk a b))) t := by
  obtain ⟨hframe, hwords⟩ := afterDecode_sameButReads (fun t => h.flags t a b) s
  have hcfg : (s.afterDecode (mk a b)).cfg = s.cfg := by rw [hframe]; rfl
  have hval : ∀ o, operandVal (s.afterDecode (mk a b)) o = operandVal s o :=
    operandVal_of_wordAt_eq hcfg (by rw [hframe]; rfl) hwords
  obtain ⟨t, hexec, ht⟩ := h.jumps ((hval a).trans hx) ((hval b).trans hy) htaken (hcfg ▸ hp)
  exact ⟨t, hexec, (SameButReads.setPc ⟨hframe, hwords⟩ p).trans ht⟩

/-- The step decodes and takes the jump, and the machine is where it was. -/
theorem JumpInstr.step_atSelfJump (h : JumpInstr mk cond taken) (hs : s.AtSelfJump mk taken a b) :
    ∃ t, step s = .next t ∧ SameButReads ((s.setCur (some (mk a b))).setRet none) t := by
  obtain ⟨hf, hp, hbelow, ⟨rest, hdec⟩, ⟨x, hx, htaken⟩, htarget⟩ := hs
  obtain ⟨hrun, -⟩ := stepRunsDecodedInstruction s (mk a b) rest hf hp (by rwa [h.length]) hdec
  obtain ⟨t, hexec, hframe, hwords⟩ := h.jumps_afterDecode hx htarget htaken (by omega)
  have hend : endPass t = .next (t.setRet none) := endPass_idle (by rw [hframe]; exact hf) (by rw [hframe]; exact hp)
  have hstep : step s = .next (t.setRet none) := by rw [hrun, hexec, afterTick, hend]
  exact ⟨_, hstep, congrArg (State.setRet · none) hframe, hwords⟩

end

/-- A taken jump to its own address comes back to where it was. -/
theorem JumpInstr.selfJumpHangs {mk : Operand → Operand → Instr} {cond : Int → Bool} {taken : Int → Prop}
    (h : JumpInstr mk cond taken) : SelfJumpHangs mk taken := by
  intro s a b rest x hf hp hlim hdec hx htaken htarget
  refine runHangs_of_invariant (P := State.AtSelfJump mk taken a b) (fun u hu => ?_)
    ⟨hf, hp, hlim, ⟨rest, hdec⟩, ⟨x, hx, htaken⟩, htarget⟩
  obtain ⟨t, hstep, hback⟩ := h.step_atSelfJump hu
  have hnext := hu.congr hback
  obtain ⟨hframe, -⟩ := hback
  exact ⟨t, hstep, hnext.healthy, by rw [hframe]; rfl, hnext⟩

theorem jumpIfTrue_jumpInstr : JumpInstr .jumpIfTrue (fun x => !weq x zero) (fun x => x ≠ 0) :=
  ⟨fun _ _ _ => rfl, fun _ _ => rfl, fun _ _ _ => rfl, fun x => by simp [weq]⟩

theorem jumpIfFalse_jumpInstr : JumpInstr .jumpIfFalse (fun x => weq x zero) (fun x => x = 0) :=
  ⟨fun _ _ _ => rfl, fun _ _ => rfl, fun _ _ _ => rfl, fun x => by simp [weq]⟩

/-- Settles O21: `JumpIfTrue` is the jump on a condition that is not 0. -/
theorem jumpIfTrueFollowsItsRule : Obligations.JumpIfTrueFollowsItsRule :=
  ⟨jumpIfTrue_jumpInstr.rule, jumpIfTrue_jumpInstr.selfJumpHangs, encode_build2 .jumpIfTrue⟩

/-- Settles O22: `JumpIfFalse` is the jump on a condition that is 0. -/
theorem jumpIfFalseFollowsItsRule : Obligations.JumpIfFalseFollowsItsRule :=
  ⟨jumpIfFalse_jumpInstr.rule, jumpIfFalse_jumpInstr.selfJumpHangs, encode_build2 .jumpIfFalse⟩

end Sys2Proof.Machine
end

section
/-! SUPPORT. 43_compare.md: `LessThan` and `Equal` (R130, R131), through the rule of two sources and a destination. -/

namespace Sys2Proof.Machine

theorem wordOfBool_decide (p : Prop) [Decidable p] : wordOfBool (decide p) = if p then 1 else 0 := by
  by_cases hp : p
  · rw [decide_eq_true hp, if_pos hp]; rfl
  · rw [decide_eq_false hp, if_neg hp]; rfl

theorem wordOfBool_wlt (x y : Int) : wordOfBool (wlt x y) = if x < y then 1 else 0 := wordOfBool_decide (x < y)

theorem wordOfBool_weq (x y : Int) : wordOfBool (weq x y) = if x = y then 1 else 0 := wordOfBool_decide (x = y)

theorem lessThan_twoSourceInstr : TwoSourceInstr .lessThan fun _ x y => .ok (wordOfBool (wlt x y)) :=
  ⟨fun _ _ _ _ => rfl, fun _ _ _ => rfl, fun _ _ _ _ => rfl⟩

theorem equal_twoSourceInstr : TwoSourceInstr .equal fun _ x y => .ok (wordOfBool (weq x y)) :=
  ⟨fun _ _ _ _ => rfl, fun _ _ _ => rfl, fun _ _ _ _ => rfl⟩

/-- Settles O17: `LessThan` is the instruction of two sources whose result is the Word of their signed order. -/
theorem lessThanFollowsItsRule : Obligations.LessThanFollowsItsRule :=
  ⟨lessThan_twoSourceInstr.rule fun hr => congrArg Except.ok ((wordOfBool_wlt _ _).trans hr.symm),
    encode_build3 .lessThan⟩

/-- Settles O18: `Equal` is the instruction of two sources whose result is the Word of their equality. -/
theorem equalFollowsItsRule : Obligations.EqualFollowsItsRule :=
  ⟨equal_twoSourceInstr.rule fun hr => congrArg Except.ok ((wordOfBool_weq _ _).trans hr.symm),
    encode_build3 .equal⟩

end Sys2Proof.Machine
end

section
/-! SUPPORT. 44_system.md: `AdjustRelativeBase` and `Halt` (R140, R141). -/

namespace Sys2Proof.Machine

/-- The state an instruction answers is written by it: every instruction answers one alone (R161). -/
theorem writtenBy_of_exec {i : Instr} {s t : State} (hexec : exec i s = .next t) : s.WrittenBy i t := by
  obtain ⟨u, hexec', hu⟩ := exec_writtenBy i s
  rw [hexec] at hexec'
  cases hexec'
  exact hu

/-! ## `AdjustRelativeBase` -/

/-- Writing `rb` commutes with reads that came before it: only the dense length records them (R55). -/
theorem SameButReads.setRb {s t : State} (h : SameButReads s t) (r : Word) : SameButReads (s.setRb r) (t.setRb r) := by
  obtain ⟨hframe, hwords⟩ := h
  exact ⟨congrArg (State.setRb · r) hframe, hwords⟩

section
variable {s : State} {a : Operand}

/-- The operand, read with the old `rb`, is added to the old `rb` (R140). -/
theorem exec_adjustRelativeBase_of_operandVal {x : Word} (hx : operandVal s a = .ok x) :
    exec (.adjustRelativeBase a) s = conclude (.adjustRelativeBase a) s
      ((liftTrap (wadd s.cfg s.rb x) (s.touchOp a)).bind fun r t => .ok () (t.setRb r)) := by
  obtain ⟨hframe, -⟩ := touchOp_sameButReads s a
  have hcfg : (s.touchOp a).cfg = s.cfg := by rw [hframe]; rfl
  have hrb : (s.touchOp a).rb = s.rb := by rw [hframe]; rfl
  simp only [exec, execAdjustRelativeBase, readOp_eq, hx, bind_ok, hcfg, hrb]

theorem exec_adjustRelativeBase_faults {tr : Trap} (ht : operandVal s a = .error tr) :
    exec (.adjustRelativeBase a) s = .next (takeFault (some (s.pc - 2)) tr s) := by
  simp only [exec, execAdjustRelativeBase, readOp_eq, ht, bind_raise, conclude_raise, Instr.length]

theorem exec_adjustRelativeBase_overflows {x : Word} {tr : Trap} (hx : operandVal s a = .ok x)
    (ht : wadd s.cfg s.rb x = .error tr) :
    exec (.adjustRelativeBase a) s = .next (takeFault (some (s.pc - 2)) tr (s.touchOp a)) := by
  rw [exec_adjustRelativeBase_of_operandVal hx, ht, liftTrap_error, bind_raise, conclude_raise, Instr.length]

theorem exec_adjustRelativeBase_sets {x r : Word} (hx : operandVal s a = .ok x) (hr : wadd s.cfg s.rb x = .ok r) :
    exec (.adjustRelativeBase a) s = .next ((s.touchOp a).setRb r) := by
  rw [exec_adjustRelativeBase_of_operandVal hx, hr, liftTrap_ok, bind_ok, conclude_ok]

end

/-- The frame of every instruction says which one may change `rb` (R140). -/
theorem rb_changed_adjustRelativeBase {i : Instr} {s t : State} (hexec : exec i s = .next t) (hrb : t.rb ≠ s.rb) :
    ∃ a, i = .adjustRelativeBase a :=
  (writtenBy_of_exec hexec).rb.resolve_left hrb

/-- Settles O23: the operand and the sum trap in turn, and without a trap `rb` is the sum. -/
theorem adjustRelativeBaseFollowsItsRule : Obligations.AdjustRelativeBaseFollowsItsRule := by
  refine ⟨fun s a => ?_, fun i s t => rb_changed_adjustRelativeBase⟩
  have hself : SameButReads s s := ⟨rfl, fun _ => rfl⟩
  have hread := touchOp_sameButReads s a
  exact ⟨encode_build1 .adjustRelativeBase a, rfl,
    fun tr ht => ⟨_, exec_adjustRelativeBase_faults ht, hself.takeFault_faultsOnly _ _⟩,
    fun x hx hfits hov =>
      ⟨_, exec_adjustRelativeBase_overflows hx (narrow_fault hfits hov), hread.takeFault_faultsOnly _ _⟩,
    fun x r hx hr => ⟨_, exec_adjustRelativeBase_sets hx (narrow_of_narrowsTo hr), hread.setRb r⟩⟩

/-! ## `Halt` -/

/-- Words that decode to `Halt` begin with its only instruction word (R72, R141). -/
theorem eq_of_decode_halt {w : Word} {ws rest : List Word} (h : decode (w :: ws) = .ok (.halt, rest)) : w = 99 :=
  List.head_eq_of_cons_eq (encodeOfDecodeIsWords (w :: ws) .halt rest h)

/-- The write of the flag that decode has set is idempotent (R141). -/
theorem setHalted_of_fHalted {s : State} (h : s.fHalted = true) : s.setHalted true = s := by
  rw [← h]
  rfl

/-- With the halt flag raised `run()` returns `Halt`, whatever other flag is raised (R163). -/
theorem endPass_halted {s : State} (hf : s.fault = none) (hh : s.fHalted = true) :
    endPass s = .next (s.setRet (some .halt)) := by
  simp only [endPass, hf, suspend, hh, if_true]

theorem pending_of_fHalted {s : State} (h : s.fHalted = true) : s.pending = true := by simp [State.pending, h]

/-- While its flag is raised, a step executes the `Halt` in `cur` again and returns `Halt` (R160, R164). -/
theorem step_pending_halt {s : State} (hf : s.fault = none) (hh : s.fHalted = true) (hc : s.cur = some .halt) :
    step s = .next (s.setRet (some .halt)) := by
  have hexec : exec .halt s = .next s := congrArg Host.Outcome.next (setHalted_of_fHalted hh)
  rw [step_eq hf, tick_pending (pending_of_fHalted hh) hc, hexec, afterTick, endPass_halted hf hh]

/-- No instruction clears the halt flag: `Halt` alone writes it, and raises it (R141). -/
theorem exec_fHalted {i : Instr} {s t : State} (hexec : exec i s = .next t) (hh : s.fHalted = true) :
    t.fHalted = true := by
  rcases (writtenBy_of_exec hexec).fHalted with hkept | rfl
  · exact hkept.trans hh
  · cases hexec
    rfl

/-- A tick of a halted machine decodes nothing: it executes the instruction in `cur`, which keeps the flag (R160). -/
theorem tick_fHalted {s u : State} (htick : tick s = .next u) (hh : s.fHalted = true) : u.fHalted = true := by
  cases hc : s.cur with
  | none => simp [tick, pending_of_fHalted hh, hc] at htick
  | some i =>
    rw [tick_pending (pending_of_fHalted hh) hc] at htick
    exact exec_fHalted htick hh

/-- No step clears the halt flag (R24, R164). -/
theorem step_fHalted {s t : State} (hh : s.fHalted = true) (hstep : step s = .next t) : t.fHalted = true := by
  obtain ⟨-, u, htick, hend⟩ := step_next_inv hstep
  obtain ⟨-, -, -, -, -, -, hkept, -⟩ := endPass_frame hend
  exact hkept.trans (tick_fHalted htick hh)

/-- `peek`, done or faulting, writes no flag (R167). -/
theorem peekState_fHalted (a : Nat) (s : State) : (peekState a s).2.fHalted = s.fHalted := by
  rcases Nat.lt_or_ge a s.cfg.memLimit with ha | ha
  · rw [peekState, memRead_ok ha]
    rfl
  · rw [peekState, memRead_raise ha]
    rfl

/-- `poke`, done or faulting, writes no flag (R168). -/
theorem pokeState_fHalted (a : Nat) (v : Word) (s : State) : (pokeState a v s).2.fHalted = s.fHalted := by
  rcases Nat.lt_or_ge a s.cfg.memLimit with ha | ha
  · rw [pokeState, memWrite_ok ha]
    rfl
  · rw [pokeState, memWrite_raise ha]
    rfl

/-- Every host operation but `reset()` keeps the halt flag: a `run()` by each of its steps (R24, R164). -/
theorem haltIsTerminal : HaltIsTerminal := by
  intro s n op hh hop
  cases hf : s.fault with
  | some r => rwa [hostOp_faulted hf]
  | none =>
    rw [hostOp_healthy hf]
    cases op with
    | reset => exact absurd rfl hop
    | run => exact runFor_induction (P := fun t => t.fHalted = true) (fun _ _ => step_fHalted) (n + 1) hh
    | setInput v => exact betweenRuns_induction (P := fun t => t.fHalted = true) hh hh
    | peek a => exact betweenRuns_induction (P := fun t => t.fHalted = true) hh ((peekState_fHalted a s).trans hh)
    | poke a v => exact betweenRuns_induction (P := fun t => t.fHalted = true) hh ((pokeState_fHalted a v s).trans hh)

/-- Settles O24: the one spelling of `Halt`, the flag no step and no operation but `reset()` clears, and the step that
executes it again. -/
theorem haltFollowsItsRule : Obligations.HaltFollowsItsRule :=
  ⟨rfl, fun _ _ _ => eq_of_decode_halt, haltIsTerminal, fun _ => ⟨rfl, rfl, step_pending_halt⟩⟩

end Sys2Proof.Machine
end

section
/-! SUPPORT. 60_exceptions.md sections 3 and 4: everything a tick, a `run()` and a host operation can come to, said
once (R160, R163, R169, R181). -/

namespace Sys2Proof.Machine

/-! ## A tick -/

/-- Everything a tick that answers a next state can be (R160): the pending instruction executed again, or a decode,
executed or faulted. -/
theorem tick_next_inv {s u : State} (htick : tick s = .next u) :
    (∃ i, s.pending = true ∧ s.cur = some i ∧ exec i s = .next u) ∨
    (∃ i t, s.pending = false ∧ decodeStep s = .ok i t ∧ exec i (t.setCur (some i)) = .next u) ∨
    ∃ trap t, s.pending = false ∧ decodeStep s = .raise trap t ∧ u = takeFault (some s.pc) trap t := by
  cases hp : s.pending with
  | true =>
    cases hc : s.cur with
    | some i => exact .inl ⟨i, rfl, rfl, (tick_pending hp hc).symm.trans htick⟩
    | none => simp [tick, hp, hc] at htick
  | false =>
    cases hd : decodeStep s with
    | ok i t => exact .inr (.inl ⟨i, t, rfl, rfl, (tick_decode hp hd).symm.trans htick⟩)
    | raise trap t =>
      rw [tick_raise hp hd] at htick
      cases htick
      exact .inr (.inr ⟨trap, t, rfl, rfl, rfl⟩)

/-- A tick that does not fault leaves the instruction it executed in `cur` (R160). -/
theorem tick_cur {s u : State} (htick : tick s = .next u) (hf : u.fault = none) : u.cur.isSome = true := by
  rcases tick_next_inv htick with ⟨i, -, hc, hexec⟩ | ⟨i, t, -, -, hexec⟩ | ⟨trap, t, -, -, rfl⟩
  · rw [(writtenBy_of_exec hexec).cur, hc]; rfl
  · rw [(writtenBy_of_exec hexec).cur]; rfl
  · cases hf

/-- A step that does not fault leaves an instruction in `cur` (R160). -/
theorem step_cur {s t : State} (hstep : step s = .next t) (hf : t.fault = none) : t.cur.isSome = true := by
  obtain ⟨-, u, htick, hend⟩ := step_next_inv hstep
  obtain ⟨-, -, -, -, -, -, -, -, hcur, hfault⟩ := endPass_frame hend
  rw [hcur]
  exact tick_cur htick (hfault.symm.trans hf)

/-- A step that enters the fault state returns nothing (R150). -/
theorem step_faults_ret {s t : State} (hstep : step s = .next t) (hf : t.fault ≠ none) : t.ret = none := by
  obtain ⟨-, u, -, hend⟩ := step_next_inv hstep
  rcases endPass_cases hend with ⟨-, rfl⟩ | ⟨hu, -, rfl⟩ | ⟨hu, -, -, rfl⟩ | ⟨v, hu, -, -, -, -, rfl⟩ |
    ⟨hu, -, -, -, rfl⟩
  · rfl
  all_goals exact absurd hu hf

/-- A pending instruction is executed again (R160). -/
theorem step_pending {s : State} {i : Instr} (hf : s.fault = none) (hp : s.pending = true) (hc : s.cur = some i) :
    step s = afterTick (exec i s) := by
  rw [step_eq hf, tick_pending hp hc]

/-! ## A `run()` -/

section
variable {s t : State}

/-- The loop goes on after a tick that raised no flag (R163). -/
theorem runFor_of_running (hstep : step s = .next t) (hf : t.fault = none) (hr : t.ret = none) (n : Nat) :
    runFor (n + 1) s = runFor n t := by
  simp only [runFor, hstep, hf, hr]

theorem runFor_of_returned {i : Interrupt} (hstep : step s = .next t) (hf : t.fault = none) (hr : t.ret = some i)
    (n : Nat) : runFor (n + 1) s = (.interrupt i, t) := by
  simp only [runFor, hstep, hf, hr]

/-- A tick that faults ends `run()` without a result (R150). -/
theorem runFor_of_faulted (hstep : step s = .next t) (hf : t.fault ≠ none) (n : Nat) :
    runFor (n + 1) s = (.noResult, t) := by
  obtain ⟨r, hr⟩ := Option.ne_none_iff_exists'.mp hf
  simp only [runFor, hstep, hr]

theorem runFor_of_stuck (hstep : ∀ t, step s ≠ .next t) (n : Nat) : runFor (n + 1) s = (.noResult, s) := by
  cases h : step s with
  | next t => exact absurd h (hstep t)
  | fault r => simp only [runFor, h]
  | refused r => simp only [runFor, h]

end

/-- What a step can mean for a `run()` (R163): the loop goes on, it returns, the step faults, or there is none. -/
theorem step_outcome (s : State) :
    (∃ t, step s = .next t ∧ t.fault = none ∧ t.ret = none) ∨
    (∃ t i, step s = .next t ∧ t.fault = none ∧ t.ret = some i) ∨
    (∃ t, step s = .next t ∧ t.fault ≠ none) ∨ ∀ t, step s ≠ .next t := by
  by_cases hstep : ∃ t, step s = .next t
  · obtain ⟨t, hstep⟩ := hstep
    by_cases hf : t.fault = none
    · cases hr : t.ret with
      | none => exact .inl ⟨t, hstep, hf, hr⟩
      | some i => exact .inr (.inl ⟨t, i, hstep, hf, hr⟩)
    · exact .inr (.inr (.inl ⟨t, hstep, hf⟩))
  · exact .inr (.inr (.inr (not_exists.mp hstep)))

/-- Everything a `run()` followed for some ticks can come to, by its last step (R163): it goes on, it returned an
interrupt, or it ended without a result. -/
inductive RunEnd : HostReply → State → Prop where
  | running {u t : State} (hstep : step u = .next t) (hf : t.fault = none) (hr : t.ret = none) : RunEnd .running t
  | returned {u t : State} {i : Interrupt} (hstep : step u = .next t) (hf : t.fault = none) (hr : t.ret = some i) :
      RunEnd (.interrupt i) t
  | faulted {u t : State} (hstep : step u = .next t) (hf : t.fault ≠ none) : RunEnd .noResult t
  | stuck {t : State} (hstep : ∀ v, step t ≠ .next v) : RunEnd .noResult t

theorem runFor_one_end (s : State) : RunEnd (runFor 1 s).1 (runFor 1 s).2 := by
  rcases step_outcome s with ⟨t, hstep, hf, hr⟩ | ⟨t, i, hstep, hf, hr⟩ | ⟨t, hstep, hf⟩ | hstep
  · rw [runFor_of_running hstep hf hr]
    exact .running hstep hf hr
  · rw [runFor_of_returned hstep hf hr]
    exact .returned hstep hf hr
  · rw [runFor_of_faulted hstep hf]
    exact .faulted hstep hf
  · rw [runFor_of_stuck hstep]
    exact .stuck hstep

/-- Followed on while it is executing, a `run()` goes on from where it is. -/
theorem runFor_add {n : Nat} {s : State} (h : (runFor n s).1 = .running) (k : Nat) :
    runFor (n + k) s = runFor k (runFor n s).2 := by
  induction n generalizing s with
  | zero => rw [Nat.zero_add]; rfl
  | succ n ih =>
    rcases step_outcome s with ⟨t, hstep, hf, hr⟩ | ⟨t, i, hstep, hf, hr⟩ | ⟨t, hstep, hf⟩ | hstep
    · rw [runFor_of_running hstep hf hr] at h ⊢
      rw [Nat.succ_add, runFor_of_running hstep hf hr]
      exact ih h
    · rw [runFor_of_returned hstep hf hr] at h; cases h
    · rw [runFor_of_faulted hstep hf] at h; cases h
    · rw [runFor_of_stuck hstep] at h; cases h

theorem runFor_end (n : Nat) (s : State) : RunEnd (runFor (n + 1) s).1 (runFor (n + 1) s).2 := by
  induction n with
  | zero => exact runFor_one_end s
  | succ n ih =>
    by_cases hrun : (runFor (n + 1) s).1 = .running
    · rw [runFor_add hrun]
      exact runFor_one_end _
    · rw [runFor_more hrun]
      exact ih

/-! ## A host operation -/

theorem hostOp_busy {s : State} {op : HostOp} (hi : s.inRun = true) (hop : op ≠ .run) (n : Nat) :
    hostOp n op s = (.running, s) := by
  obtain ⟨-, -, hf⟩ := inRun_iff.mp hi
  rw [hostOp_healthy hf]
  cases op with
  | run => exact absurd rfl hop
  | reset | setInput v | peek a | poke a v => exact betweenRuns_busy hi _

theorem hostOp_run {s : State} (hf : s.fault = none) (n : Nat) : hostOp n .run s = runFor (n + 1) s :=
  hostOp_healthy hf n .run

/-- The state of `peek` and `poke` at an address that is none (R167, R168). -/
def State.badHostAddress (s : State) (a : Nat) : State :=
  takeFault none { cause := .badAddress, info := a } s

section
variable {s : State} (hf : s.fault = none) (hi : s.inRun = false)
include hf hi

theorem hostOp_setInput_idle (v : Word) (n : Nat) : hostOp n (.setInput v) s = (.done, s.setInReg (some v)) := by
  rw [hostOp_healthy hf, hostOpHealthy, betweenRuns_idle hi]

theorem hostOp_peek_illegal {a : Nat} (ha : s.cfg.memLimit ≤ a) (n : Nat) :
    hostOp n (.peek a) s = (.noResult, s.badHostAddress a) := by
  rw [hostOp_healthy hf, hostOpHealthy, betweenRuns_idle hi, peekState, memRead_raise ha, State.badHostAddress]

theorem hostOp_poke_illegal {a : Nat} (ha : s.cfg.memLimit ≤ a) (v : Word) (n : Nat) :
    hostOp n (.poke a v) s = (.noResult, s.badHostAddress a) := by
  rw [hostOp_healthy hf, hostOpHealthy, betweenRuns_idle hi, pokeState, memWrite_raise ha, State.badHostAddress]

end

/-- Everything a host operation can do (R150, R169, R181): nothing in the fault state or while a `run()` is executing;
a `run()`; or its effect between two of them. -/
inductive HostEffect (n : Nat) (s : State) : HostOp → HostReply × State → Prop where
  | faulted {op : HostOp} {r : FaultRecord} (hf : s.fault = some r) : HostEffect n s op (.noResult, s)
  | busy {op : HostOp} (hi : s.inRun = true) (hop : op ≠ .run) : HostEffect n s op (.running, s)
  | run (hf : s.fault = none) : HostEffect n s .run (runFor (n + 1) s)
  | reset (hf : s.fault = none) (hi : s.inRun = false) : HostEffect n s .reset (.done, resetState s)
  | setInput {v : Word} (hf : s.fault = none) (hi : s.inRun = false) :
      HostEffect n s (.setInput v) (.done, s.setInReg (some v))
  | peek {a : Nat} (hf : s.fault = none) (hi : s.inRun = false) (ha : a < s.cfg.memLimit) :
      HostEffect n s (.peek a) (.word (s.wordAt a), s.touch a)
  | poke {a : Nat} {v : Word} (hf : s.fault = none) (hi : s.inRun = false) (ha : a < s.cfg.memLimit) :
      HostEffect n s (.poke a v) (.done, s.stored a v)
  | peekIllegal {a : Nat} (hf : s.fault = none) (hi : s.inRun = false) (ha : s.cfg.memLimit ≤ a) :
      HostEffect n s (.peek a) (.noResult, s.badHostAddress a)
  | pokeIllegal {a : Nat} {v : Word} (hf : s.fault = none) (hi : s.inRun = false) (ha : s.cfg.memLimit ≤ a) :
      HostEffect n s (.poke a v) (.noResult, s.badHostAddress a)

theorem HostEffect.hostOp_eq {n : Nat} {s : State} {op : HostOp} {r : HostReply × State} (h : HostEffect n s op r) :
    hostOp n op s = r := by
  cases h with
  | faulted hf => exact hostOp_faulted hf n op
  | busy hi hop => exact hostOp_busy hi hop n
  | run hf => exact hostOp_run hf n
  | reset hf hi => exact hostOp_reset_idle hf hi n
  | setInput hf hi => exact hostOp_setInput_idle hf hi _ n
  | peek hf hi ha => exact hostOp_peek_idle hf hi ha n
  | poke hf hi ha => exact hostOp_poke_idle hf hi ha _ n
  | peekIllegal hf hi ha => exact hostOp_peek_illegal hf hi ha n
  | pokeIllegal hf hi ha => exact hostOp_poke_illegal hf hi ha _ n

theorem exists_hostEffect (n : Nat) (op : HostOp) (s : State) : ∃ r, HostEffect n s op r := by
  cases hf : s.fault with
  | some r => exact ⟨_, .faulted hf⟩
  | none =>
    by_cases hop : op = .run
    · subst hop
      exact ⟨_, .run hf⟩
    cases hi : s.inRun with
    | true => exact ⟨_, .busy hi hop⟩
    | false =>
      cases op with
      | run => exact absurd rfl hop
      | reset => exact ⟨_, .reset hf hi⟩
      | setInput v => exact ⟨_, .setInput hf hi⟩
      | peek a =>
        rcases Nat.lt_or_ge a s.cfg.memLimit with ha | ha
        · exact ⟨_, .peek hf hi ha⟩
        · exact ⟨_, .peekIllegal hf hi ha⟩
      | poke a v =>
        rcases Nat.lt_or_ge a s.cfg.memLimit with ha | ha
        · exact ⟨_, .poke hf hi ha⟩
        · exact ⟨_, .pokeIllegal hf hi ha⟩

theorem hostOp_effect (n : Nat) (op : HostOp) (s : State) : HostEffect n s op (hostOp n op s) := by
  obtain ⟨r, hr⟩ := exists_hostEffect n op s
  rw [hr.hostOp_eq]
  exact hr

end Sys2Proof.Machine
end

section
/-! SUPPORT. 60_exceptions.md: the fault state (R150), pending instructions (R160), what `run()` returns (R163, R170),
and the host's operations one by one (R166 to R169). -/

namespace Sys2Proof.Machine

/-- Settles O29: a poke changes neither `cur` nor a flag, so the step after it executes `cur` again too. -/
theorem stepReexecutesPendingInstruction : Obligations.StepReexecutesPendingInstruction := by
  refine fun s i hf hp hc => ⟨step_pending hf hp hc, fun n a v hi ha => ?_⟩
  rw [hostOp_poke_idle hf hi ha]
  exact ⟨rfl, hc, step_pending (s := s.stored a v) hf hp hc⟩

/-- Settles O43: between two `run()` calls the operation is the write of the register. -/
theorem setInputFillsRegister : Obligations.SetInputFillsRegister :=
  fun _ n v hf hi => hostOp_setInput_idle hf hi v n

theorem touch_sameButReads (s : State) (a : Nat) : SameButReads s (s.touch a) := ⟨rfl, touch_wordAt s a⟩

/-- Settles O44: a legal address is read or stored to, any other one faults. -/
theorem peekAndPokeReachMemory : Obligations.PeekAndPokeReachMemory := by
  intro s n a v hf hi
  exact ⟨fun ha => ⟨_, hostOp_peek_idle hf hi ha n, touch_sameButReads s a⟩,
    fun ha => ⟨_, hostOp_poke_idle hf hi ha v n, stored_storesOnly s a v⟩,
    fun ha => ⟨hostOp_peek_illegal hf hi ha n, hostOp_poke_illegal hf hi ha v n⟩⟩

/-- A `run()` that leaves the machine in the fault state has no result (R150). -/
theorem RunEnd.noResult_of_fault {r : HostReply} {t : State} (h : RunEnd r t) (hf : t.fault ≠ none) :
    r = .noResult := by
  cases h with
  | running hstep hf' hr => exact absurd hf' hf
  | returned hstep hf' hr => exact absurd hf' hf
  | faulted hstep hf' => rfl
  | stuck hstep => rfl

theorem HostEffect.noResult_of_fault {n : Nat} {s : State} {op : HostOp} {r : HostReply × State}
    (h : HostEffect n s op r) (hf : r.2.fault ≠ none) : r.1 = .noResult := by
  cases h with
  | faulted hf' => rfl
  | busy hi hop => exact absurd (inRun_iff.mp hi).2.2 hf
  | run hf' => exact (runFor_end n s).noResult_of_fault hf
  | reset hf' hi => exact absurd hf' hf
  | setInput hf' hi => exact absurd hf' hf
  | peek hf' hi ha => exact absurd hf' hf
  | poke hf' hi ha => exact absurd hf' hf
  | peekIllegal hf' hi ha => rfl
  | pokeIllegal hf' hi ha => rfl

/-- Settles O32: how a step and a host operation enter the fault state, and that nothing is done in it. -/
theorem faultStateIsTerminal : Obligations.FaultStateIsTerminal :=
  ⟨fun _ _ => step_faults_ret, fun s n op => (hostOp_effect n op s).noResult_of_fault,
    fun _ _ hr => ⟨step_faulted hr, hostOp_faulted hr⟩⟩

/-- The interrupt a pass returns is one whose flag its tick left raised (R163, R170). -/
theorem endPass_ret_raised {u t : State} {i : Interrupt} (hend : endPass u = .next t) (hr : t.ret = some i) :
    i.raisedIn u := by
  rcases endPass_cases hend with ⟨-, rfl⟩ | ⟨-, hhalt, rfl⟩ | ⟨-, -, hawait, rfl⟩ | ⟨v, -, -, -, hout, hreg, rfl⟩ |
    ⟨-, -, -, -, rfl⟩ <;> cases hr
  · exact hhalt
  · exact hawait
  · exact ⟨hout, hreg⟩

/-- An interrupt of `run()` is what its last step returned, without a fault (R170). -/
theorem runFor_interrupt {n : Nat} {s t : State} {i : Interrupt} (h : runFor n s = (.interrupt i, t)) :
    ∃ u, step u = .next t ∧ t.fault = none ∧ t.ret = some i := by
  cases n with
  | zero => cases h
  | succ n =>
    have hend := runFor_end n s
    rw [h] at hend
    cases hend with
    | returned hstep hf hr => exact ⟨_, hstep, hf, hr⟩

/-- Settles O40: the last step of the `run()` is a tick and the tests of its flags. -/
theorem runReturnsOnlyARaisedInterrupt : Obligations.RunReturnsOnlyARaisedInterrupt := by
  intro n s t i h
  obtain ⟨u, hstep, hf, hr⟩ := runFor_interrupt h
  obtain ⟨-, v, htick, hend⟩ := step_next_inv hstep
  obtain ⟨-, -, -, -, -, -, -, -, -, hfault⟩ := endPass_frame hend
  exact ⟨u, v, htick, hfault.symm.trans hf, endPass_ret_raised hend hr, hend, hr⟩

/-! ## Serial operations (R169) -/

/-- A `run()` that goes on is executing: its last step left an instruction in `cur` and returned nothing. -/
theorem RunEnd.inRun {t : State} (h : RunEnd .running t) : t.inRun = true := by
  cases h with
  | running hstep hf hr => exact inRun_iff.mpr ⟨step_cur hstep hf, hr, hf⟩

theorem hostOp_run_running {s t : State} {n : Nat} (h : hostOp n .run s = (.running, t)) :
    s.fault = none ∧ runFor (n + 1) s = (.running, t) := by
  cases hf : s.fault with
  | some r => rw [hostOp_faulted hf] at h; cases h
  | none => exact ⟨rfl, (hostOp_run hf n).symm.trans h⟩

/-- The reply `running` of `run` leaves the same `run()` executing. -/
theorem hostOp_run_goes_on {s t : State} {n : Nat} (h : hostOp n .run s = (.running, t)) :
    t.inRun = true ∧ ∀ m, hostOp m .run t = hostOp (n + 1 + m) .run s := by
  obtain ⟨hs, hrun⟩ := hostOp_run_running h
  have hend := runFor_end n s
  rw [hrun] at hend
  obtain ⟨-, -, hf⟩ := inRun_iff.mp hend.inRun
  refine ⟨hend.inRun, fun m => ?_⟩
  have hadd := runFor_add (n := n + 1) (s := s) (congrArg Prod.fst hrun) (m + 1)
  rw [hostOp_run hf, hostOp_run hs, Nat.add_assoc (n + 1), hadd, hrun]

theorem hostOp_run_interrupt {s t : State} {n : Nat} {i : Interrupt} (h : hostOp n .run s = (.interrupt i, t)) :
    t.ret = some i := by
  cases hf : s.fault with
  | some r => rw [hostOp_faulted hf] at h; cases h
  | none =>
    rw [hostOp_run hf] at h
    obtain ⟨-, -, -, hr⟩ := runFor_interrupt h
    exact hr

theorem inRun_of_fault {s : State} (h : s.fault ≠ none) : s.inRun = false := by
  rw [Bool.eq_false_iff]
  exact fun hi => h (inRun_iff.mp hi).2.2

/-- An operation other than `run` completes at once between two `run()` calls, and starts none. -/
theorem HostEffect.completes {n : Nat} {s : State} {op : HostOp} {r : HostReply × State} (h : HostEffect n s op r)
    (hi : s.inRun = false) (hop : op ≠ .run) : r.1 ≠ .running ∧ r.2.inRun = false := by
  cases h with
  | faulted hf => exact ⟨nofun, hi⟩
  | busy hi' hop' => exact absurd (hi.symm.trans hi') Bool.false_ne_true
  | run hf => exact absurd rfl hop
  | reset hf hi' => exact ⟨nofun, resetState_inRun⟩
  | setInput hf hi' => exact ⟨nofun, hi⟩
  | peek hf hi' ha => exact ⟨nofun, hi⟩
  | poke hf hi' ha => exact ⟨nofun, hi⟩
  | peekIllegal hf hi' ha => exact ⟨nofun, inRun_of_fault nofun⟩
  | pokeIllegal hf hi' ha => exact ⟨nofun, inRun_of_fault nofun⟩

/-- Settles O54: a followed `run()`, an operation it holds up, its return, the other operations, and construction. -/
theorem hostActsOnlyBetweenRuns : Obligations.HostActsOnlyBetweenRuns :=
  ⟨fun _ _ _ => hostOp_run_goes_on, fun _ n _ hi hop => hostOp_busy hi hop n,
    fun _ _ _ _ h => inRun_of_ret_some (hostOp_run_interrupt h),
    fun s n op => (hostOp_effect n op s).completes,
    fun _ _ => ⟨inRun_of_cur_none rfl, inRun_of_cur_none rfl⟩⟩

end Sys2Proof.Machine
end

section
/-! SUPPORT. 60_exceptions.md sections 3 and 4: the invariant of a machine along the host's operations (R181), that a
healthy machine always steps (R160, R163), and the `run()` of a halted machine (R164) and of one that raises no flag
(R171). -/

namespace Sys2Proof.Machine

/-! ## The host's operations keep the invariant -/

theorem inv_iff {s : State} : s.Inv ↔ s.Data ∧ (s.fault = none → s.flagsOk = true) := and_congr_left' (dataOk_iff s)

/-- A reset overlay is empty, with the length of the image (R41, R42). -/
theorem Memory.Ok.reset {c : Config} {cap : Nat} {m : Memory} (h : m.Ok c cap) :
    (backendReset c.backend cap m).Ok c cap where
  wf := backendReset_wf _ _ _
  fits := by rw [Memory.fits, backendReset_cells]; rfl
  dense hb := by
    rw [hb, Memory.covers_iff]
    exact ⟨le_rfl, rfl⟩
  sparse hb := by
    rw [hb]
    exact h.sparse hb

theorem State.Data.resetState {s : State} (hs : s.Data) : (resetState s).Data :=
  { hs with overlay := hs.overlay.reset, rb := Width.fits_zero _, inReg := rfl, outReg := rfl, cur := rfl }

theorem HostEffect.keeps_inv {n : Nat} {s : State} {op : HostOp} {r : HostReply × State} (h : HostEffect n s op r)
    (hs : s.Inv) (hop : op.wf s.cfg.width = true) : r.2.Inv := by
  obtain ⟨hdata, hflags⟩ := inv_iff.mp hs
  cases h with
  | faulted hf => exact hs
  | busy hi hrun => exact hs
  | run hf => exact runFor_induction (P := State.Inv) stepKeepsInvariant (n + 1) hs
  | reset hf hi => exact inv_iff.mpr ⟨hdata.resetState, fun _ => rfl⟩
  | setInput hf hi => exact inv_iff.mpr ⟨{ hdata with inReg := hop }, hflags⟩
  | peek hf hi ha => exact inv_iff.mpr ⟨hdata.touch _, hflags⟩
  | poke hf hi ha => exact inv_iff.mpr ⟨hdata.stored ha hop, hflags⟩
  | peekIllegal hf hi ha => exact inv_iff.mpr ⟨{ hdata with }, nofun⟩
  | pokeIllegal hf hi ha => exact inv_iff.mpr ⟨{ hdata with }, nofun⟩

/-- Settles O34: each effect of a host operation keeps the data clauses and, without a fault, the flags. -/
theorem hostOpKeepsInvariant : Obligations.HostOpKeepsInvariant :=
  fun s n op hs hop => (hostOp_effect n op s).keeps_inv hs hop

/-! ## A healthy machine always steps -/

/-- An `Out` that does not fault holds its Word for the hand-over (R111). -/
theorem exec_out_outReg {a : Operand} {s t : State} (hexec : exec (.out a) s = .next t) (hf : t.fault = none) :
    ∃ v, t.outReg = some v := by
  cases hv : operandVal s a with
  | error tr => rw [exec_out_faults hv] at hexec; cases hexec; cases hf
  | ok v => rw [exec_out_of_operandVal hv] at hexec; cases hexec; exact ⟨v, rfl⟩

/-- An instruction that ends with the output flag raised is an `Out`, and an output Word is held (R163). -/
theorem State.Executing.holds_output {i : Instr} {s t : State} (hs : s.Executing i) (hexec : exec i s = .next t)
    (hf : t.fault = none) (ho : t.fHasOut = true) : ∃ v, t.outReg = some v := by
  obtain ⟨a, hc⟩ := hs.flags.hasOut ((writtenBy_of_exec hexec).fHasOut.symm.trans ho)
  obtain rfl : i = .out a := Option.some.inj (hs.cur.symm.trans hc)
  exact exec_out_outReg hexec hf

/-- A machine's tick executes an instruction that is ready to, or faults in its decode (R160). -/
theorem tick_executes {s : State} (hs : s.Data) (hflags : s.flagsOk = true) :
    (∃ i u, u.Executing i ∧ tick s = exec i u) ∨ ∃ t, tick s = .next t ∧ t.fault ≠ none := by
  cases hp : s.pending with
  | true =>
    obtain ⟨i, hc, hexec⟩ := executing_of_pending hs hflags hp
    exact .inl ⟨i, s, hexec, tick_pending hp hc⟩
  | false =>
    have hdec := decodeStep_keeps hs
    cases hd : decodeStep s with
    | ok i t =>
      rw [hd] at hdec
      obtain ⟨hi, u, hu, rfl⟩ := hdec
      exact .inl ⟨i, _, executing_of_decoded hflags hp hi hu, tick_decode hp hd⟩
    | raise trap t => exact .inr ⟨_, tick_raise hp hd, nofun⟩

/-- A machine's tick answers a next state, with a Word in the output register when the output flag is raised. -/
theorem tick_next {s : State} (hs : s.Data) (hflags : s.flagsOk = true) :
    ∃ t, tick s = .next t ∧ (t.fault = none → t.fHasOut = true → ∃ v, t.outReg = some v) := by
  rcases tick_executes hs hflags with ⟨i, u, hu, htick⟩ | ⟨t, htick, hf⟩
  · obtain ⟨t, hexec, -⟩ := exec_writtenBy i u
    exact ⟨t, htick.trans hexec, hu.holds_output hexec⟩
  · exact ⟨t, htick, fun hf' => absurd hf' hf⟩

/-- The end of a pass is stuck only for want of an output Word (R163). -/
theorem endPass_next {u : State} (h : u.fault = none → u.fHasOut = true → ∃ v, u.outReg = some v) :
    ∃ t, endPass u = .next t := by
  cases hf : u.fault with
  | some r => exact ⟨u.setRet none, by simp only [endPass, hf]⟩
  | none =>
    cases hh : u.fHalted with
    | true => exact ⟨_, endPass_halted hf hh⟩
    | false =>
      cases hw : u.fAwaitIn with
      | true => exact ⟨_, endPass_await hf hh hw⟩
      | false =>
        cases ho : u.fHasOut with
        | true =>
          obtain ⟨v, hv⟩ := h hf ho
          exact ⟨_, endPass_output hf hh hw ho hv⟩
        | false => exact ⟨_, endPass_idle hf (by simp [State.pending, hw, ho, hh])⟩

/-- Settles O36: the tick answers, and the end of its pass has the output Word it may need. -/
theorem healthyMachineAlwaysSteps : Obligations.HealthyMachineAlwaysSteps := by
  intro s hs hf
  obtain ⟨hdata, hflags⟩ := inv_iff.mp hs
  obtain ⟨u, htick, hout⟩ := tick_next hdata (hflags hf)
  obtain ⟨t, hend⟩ := endPass_next hout
  exact ⟨t, by rw [step_eq hf, htick, afterTick, hend]⟩

/-! ## `run()` after `Halt`, and without a flag -/

/-- A halted machine's step returns `Halt` again and changes nothing (R164). -/
theorem step_of_halted {s : State} (hs : s.Inv) (hf : s.fault = none) (hh : s.fHalted = true) :
    step s = .next s ∧ s.ret = some .halt := by
  obtain ⟨-, hflags⟩ := inv_iff.mp hs
  obtain ⟨-, -, -, hhalt, hmatch⟩ := (flagsOk_iff s).mp (hflags hf)
  have hret : s.ret = some .halt := by simpa [hh] using hhalt
  have hsame : s.setRet (some .halt) = s := by rw [← hret]; rfl
  exact ⟨(step_pending_halt hf hh (hmatch.halted hh)).trans (congrArg Host.Outcome.next hsame), hret⟩

/-- Settles O38: the step of a halted machine, the flag no step clears, and the operations that keep it. -/
theorem haltedMachineStaysHalted : Obligations.HaltedMachineStaysHalted := by
  refine ⟨fun s hs hf hh n => ?_, fun s t hstep hh => step_fHalted hh hstep, haltIsTerminal⟩
  obtain ⟨hstep, hret⟩ := step_of_halted hs hf hh
  rw [hostOp_run hf, runFor_of_returned hstep hf hret]

/-- One step and then more are steps. -/
theorem Steps.cons {s t u : State} (hstep : step s = .next t) (h : Steps t u) : Steps s u := by
  induction h with
  | one h => exact .more (.one hstep) h
  | more _ h ih => exact .more ih h

/-- A healthy machine that neither faults nor returns an interrupt, however far it steps (R171). -/
structure State.Silent (s : State) : Prop where
  inv : s.Inv
  healthy : s.fault = none
  ahead : ∀ t, Steps s t → t.fault = none ∧ t.ret = none

/-- A silent machine steps to a silent one. -/
theorem State.Silent.step {s : State} (hs : s.Silent) :
    ∃ t, step s = .next t ∧ t.fault = none ∧ t.ret = none ∧ t.Silent := by
  obtain ⟨t, hstep⟩ := healthyMachineAlwaysSteps s hs.inv hs.healthy
  obtain ⟨hf, hr⟩ := hs.ahead t (.one hstep)
  exact ⟨t, hstep, hf, hr, stepKeepsInvariant s t hs.inv hstep, hf, fun u hu => hs.ahead u (.cons hstep hu)⟩

/-- Settles O42: a machine that raises no flag and does not fault is silent, and stays so. -/
theorem runHasNoTimeout : Obligations.RunHasNoTimeout :=
  fun _ hs hf hahead => runHangs_of_invariant (fun _ => State.Silent.step) ⟨hs, hf, hahead⟩

end Sys2Proof.Machine
end

section
/-! SUPPORT. 60_exceptions.md R165: the hand-over of an output. -/

namespace Sys2Proof.Machine

/-- The machine `s` behind the `Out` it executed and handed over, its reads recorded in the overlay `m` (R111, R165). -/
def State.handedOver (s : State) (a : Operand) (v : Word) (m : Memory) : State :=
  (((((s.setOverlay m).setPc (s.pc + 2)).setCur (some (.out a))).setOutReg none).setHasOut false).setRet
    (some (.output v))

/-- A step that decodes an `Out` whose operand is a Word hands the Word over. -/
theorem step_out {s : State} {a : Operand} {rest : List Word} {v : Word} (hf : s.fault = none)
    (hp : s.pending = false) (hlim : s.pc + 2 ≤ s.cfg.memLimit)
    (hdec : decode (s.wordsAt s.pc) = .ok (.out a, rest)) (hv : operandVal s a = .ok v) :
    ∃ m, step s = .next (s.handedOver a v m) := by
  obtain ⟨hrun, -, -, hrb, -, -, hfault, hwords⟩ := stepRunsDecodedInstruction s (.out a) rest hf hp hlim hdec
  have hcfg : (s.afterDecode (.out a)).cfg = s.cfg := rfl
  have hval : operandVal (s.afterDecode (.out a)) a = .ok v := (operandVal_of_wordAt_eq hcfg hrb hwords a).trans hv
  simp only [State.pending, Bool.or_eq_false_iff] at hp
  obtain ⟨⟨hw, -⟩, hh⟩ := hp
  obtain ⟨hframe, hreads⟩ := touchOp_sameButReads (s.afterDecode (.out a)) a
  have hend := (SameButReads.setOutReg ⟨hframe, hreads⟩ (some v)).endPass_output hfault rfl hw hh
  refine ⟨((s.afterDecode (.out a)).touchOp a).overlay, ?_⟩
  rw [hrun, exec_out_of_operandVal hval, afterTick, hend, hframe]
  rfl

/-- With no flag pending a tick decodes at `pc` (R160). -/
theorem tick_of_not_pending {s : State} (hp : s.pending = false) {p : Nat} (hpc : s.pc = p) :
    tick s = match decodeStep s with
      | .ok i u => exec i (u.setCur (some i))
      | .raise trap u => .next (takeFault (some p) trap u) := by
  subst hpc
  cases hd : decodeStep s with
  | ok i u => exact tick_decode hp hd
  | raise trap u => exact tick_raise hp hd

/-- Settles O39: the hand-over clears the flag the decode raised, so that nothing is pending. -/
theorem outputIsHandedOverOnce : Obligations.OutputIsHandedOverOnce := by
  intro s a rest v _ hf hp hlim hdec hv
  obtain ⟨m, hstep⟩ := step_out hf hp hlim hdec hv
  have hidle : (s.handedOver a v m).pending = false := by
    simp only [State.pending, Bool.or_eq_false_iff] at hp
    obtain ⟨⟨hw, -⟩, hh⟩ := hp
    simp [State.pending, State.handedOver, hw, hh]
  exact ⟨_, hstep, rfl, rfl, rfl, hf, hidle, rfl, tick_of_not_pending hidle rfl⟩

end Sys2Proof.Machine
end

section
/-! SUPPORT. 60_exceptions.md R162, R182: the machine without tracing, backend and dense length. Every step and every
host operation commutes with this view, and a reset machine is the one that was constructed. -/

namespace Sys2Proof.Machine

/-! ## Steps under a view -/

/-- Tracing is free: nothing depends on it (R162). -/
theorem mimics_withTrace (c : Config) (b : Bool) :
    Mimics c (fun c => { c with trace := b }) id (fun _ => False) where
  memLimit := rfl
  lenAfter _ _ := rfl
  narrow _ := .rfl

/-- With no cause excused a step commutes with the recast on every path. -/
theorem step_recast {g : Config → Config} {h : Nat → Nat} {s : State} (hm : Mimics s.cfg g h (fun _ => False)) :
    step (s.recast g h) = mapNext (.recast g h) (step s) := by
  rcases step_follows hm rfl with hstep | ⟨_, _, _, _, hfalse⟩
  · exact hstep
  · exact hfalse.elim

/-- Settles O51: the change of `TRACE` is a recast that excuses no trap. -/
theorem stepIgnoresTrace : Obligations.StepIgnoresTrace :=
  fun s b => step_recast (mimics_withTrace s.cfg b)

/-! ## What the host sees -/

/-- The machine without what no reply depends on: tracing, the backend and the dense length (R49, R162). -/
def State.view (s : State) : State := (s.withTrace false).forgetBackend

/-- The configuration of a view. -/
def Config.view (c : Config) : Config := { c with trace := false, backend := .sparse }

theorem mimics_view (c : Config) : Mimics c Config.view (fun _ => 0) (fun _ => False) where
  memLimit := rfl
  lenAfter _ _ := rfl
  narrow _ := .rfl

theorem step_view (s : State) : step s.view = mapNext State.view (step s) := step_recast (mimics_view s.cfg)

theorem step_view_next {s t : State} (hstep : step s = .next t) : step s.view = .next t.view := by
  rw [step_view, hstep]
  rfl

theorem step_view_stuck {s : State} (hstep : ∀ t, step s ≠ .next t) (t : State) : step s.view ≠ .next t := by
  rw [step_view]
  cases hs : step s with
  | next u => exact absurd hs (hstep u)
  | fault r => exact nofun
  | refused r => exact nofun

/-- A `run()` gives the same reply under the view (R163). -/
theorem runFor_view (n : Nat) (s : State) : runFor n s.view = ((runFor n s).1, (runFor n s).2.view) := by
  induction n generalizing s with
  | zero => rfl
  | succ n ih =>
    rcases step_outcome s with ⟨t, hstep, hf, hr⟩ | ⟨t, i, hstep, hf, hr⟩ | ⟨t, hstep, hf⟩ | hstep
    · rw [runFor_of_running hstep hf hr, runFor_of_running (t := t.view) (step_view_next hstep) hf hr]
      exact ih t
    · rw [runFor_of_returned hstep hf hr, runFor_of_returned (t := t.view) (step_view_next hstep) hf hr]
    · rw [runFor_of_faulted hstep hf, runFor_of_faulted (t := t.view) (step_view_next hstep) hf]
    · rw [runFor_of_stuck hstep, runFor_of_stuck (step_view_stuck hstep)]

theorem touch_view (s : State) (a : Nat) : s.view.touch a = (s.touch a).view := recast_touch (mimics_view s.cfg) rfl a

theorem stored_view (s : State) (a : Nat) (v : Word) : s.view.stored a v = (s.stored a v).view :=
  recast_stored (mimics_view s.cfg) rfl a v

theorem wordAt_view (s : State) (a : Nat) : s.view.wordAt a = s.wordAt a :=
  recast_wordAt (g := Config.view) (h := fun _ => 0) s a

/-- `reset()` unsets every slot under both backends (R41, R42). -/
theorem resetState_view (s : State) : resetState s.view = (resetState s).view := by
  have hov : (resetState s.view).overlay = (resetState s).view.overlay :=
    Memory.ext_fields (resetState_cells s).symm rfl
  exact congrArg (resetState s.view).setOverlay hov

/-- Every host operation gives the same reply under the view (R181). -/
theorem HostEffect.view {n : Nat} {s : State} {op : HostOp} {r : HostReply × State} (h : HostEffect n s op r) :
    HostEffect n s.view op (r.1, r.2.view) := by
  cases h with
  | faulted hf => exact .faulted (s := s.view) hf
  | busy hi hop => exact .busy (s := s.view) hi hop
  | run hf =>
    rw [← runFor_view]
    exact .run (s := s.view) hf
  | reset hf hi =>
    rw [← resetState_view]
    exact .reset (s := s.view) hf hi
  | setInput hf hi => exact .setInput (s := s.view) hf hi
  | @peek a hf hi ha =>
    rw [← touch_view, ← wordAt_view]
    exact .peek (s := s.view) hf hi ha
  | @poke a v hf hi ha =>
    rw [← stored_view]
    exact .poke (s := s.view) hf hi ha
  | peekIllegal hf hi ha => exact .peekIllegal (s := s.view) hf hi ha
  | pokeIllegal hf hi ha => exact .pokeIllegal (s := s.view) hf hi ha

theorem Session.view {s t : State} {ops : List HostOp} {rs : List HostReply} (h : Session s ops rs t) :
    Session s.view ops rs t.view := by
  induction h with
  | nil s => exact .nil s.view
  | @cons s u t op r ops rs n h hr _ ih =>
    have heffect := hostOp_effect n op s
    rw [h] at heffect
    exact .cons n heffect.view.hostOp_eq hr ih

/-! ## The parameters and the image along a history (R20, R29) -/

/-- `t` is a machine of the same parameters over the same image. -/
def State.SameProgram (s t : State) : Prop := t.cfg = s.cfg ∧ t.image = s.image

theorem State.SameProgram.trans {s t u : State} (h : s.SameProgram t) (h' : t.SameProgram u) : s.SameProgram u :=
  ⟨h'.1.trans h.1, h'.2.trans h.2⟩

theorem State.SameProgram.liftTrap {α : Type} {s t : State} (h : s.SameProgram t) (e : Except Trap α) :
    s.SameProgram (liftTrap e t).state := by
  cases e with
  | ok v => exact h
  | error trap => exact h

theorem State.SameProgram.fetchWord {s t : State} (h : s.SameProgram t) : s.SameProgram (fetchWord t).state := by
  rcases Nat.lt_or_ge t.pc t.cfg.memLimit with hpc | hpc
  · rw [fetchWord_ok hpc]
    exact h
  · rw [fetchWord_raise hpc]
    exact h

theorem State.SameProgram.fetchParams {s t : State} (h : s.SameProgram t) (hd : Head) :
    s.SameProgram (fetchParams hd t).state := by
  cases hd with
  | p0 => exact h
  | p1 op a => exact bind_state h.fetchWord fun _ _ h₁ => h₁
  | p2 op a b => exact bind_state h.fetchWord fun _ _ h₁ => bind_state h₁.fetchWord fun _ _ h₂ => h₂
  | p3 op a b c =>
    exact bind_state h.fetchWord fun _ _ h₁ => bind_state h₁.fetchWord fun _ _ h₂ =>
      bind_state h₂.fetchWord fun _ _ h₃ => h₃

theorem decodeStep_sameProgram (s : State) : s.SameProgram (decodeStep s).state := by
  refine bind_state (State.SameProgram.fetchWord ⟨rfl, rfl⟩) fun w s₁ h₁ => ?_
  refine bind_state (h₁.liftTrap _) fun hd s₂ h₂ => bind_state (h₂.fetchParams hd) fun i s₃ h₃ => ?_
  cases i <;> exact h₃

theorem exec_sameProgram {i : Instr} {s t : State} (hexec : exec i s = .next t) : s.SameProgram t :=
  ⟨(writtenBy_of_exec hexec).cfg, (writtenBy_of_exec hexec).image⟩

theorem tick_sameProgram {s u : State} (htick : tick s = .next u) : s.SameProgram u := by
  have hdec := decodeStep_sameProgram s
  rcases tick_next_inv htick with ⟨i, -, -, hexec⟩ | ⟨i, t, -, hd, hexec⟩ | ⟨trap, t, -, hd, rfl⟩
  · exact exec_sameProgram hexec
  · rw [hd] at hdec
    exact State.SameProgram.trans (t := t.setCur (some i)) hdec (exec_sameProgram hexec)
  · rw [hd] at hdec
    exact hdec

theorem step_sameProgram {s t : State} (hstep : step s = .next t) : s.SameProgram t := by
  obtain ⟨-, u, htick, hend⟩ := step_next_inv hstep
  obtain ⟨hcfg, himage, -⟩ := endPass_frame hend
  exact (tick_sameProgram htick).trans ⟨hcfg, himage⟩

theorem HostEffect.sameProgram {n : Nat} {s : State} {op : HostOp} {r : HostReply × State}
    (h : HostEffect n s op r) : s.SameProgram r.2 := by
  cases h with
  | run hf =>
    exact runFor_induction (P := s.SameProgram) (fun _ _ h hstep => h.trans (step_sameProgram hstep)) (n + 1)
      ⟨rfl, rfl⟩
  | _ => exact ⟨rfl, rfl⟩

/-! ## Construction and reset -/

/-- A machine built over Words meets the data clauses (R35, R190). -/
theorem State.Data.initial {cfg : Config} {image : List Word} (hcfg : cfg.wf = true)
    (himage : image.all cfg.width.fits = true) : (State.initial cfg image).Data where
  cfg := hcfg
  image := himage
  overlay :=
    { wf := rfl
      fits := rfl
      dense := fun _ => Memory.covers_iff.mpr ⟨le_rfl, rfl⟩
      sparse := fun _ => rfl }
  rb := Width.fits_zero _
  inReg := rfl
  outReg := rfl
  cur := rfl

/-- A token that load keeps is a Word (R91). -/
theorem tokenWord_fits {w : Width} {t : List Char} {v : Word} (h : tokenWord w t = some v) : w.fits v = true := by
  unfold tokenWord at h
  split at h
  · split at h
    · cases h; assumption
    · cases h
  · cases h

/-- The image of a text is made of Words (R91). -/
theorem parse_fits (w : Width) (text : List Char) : (parse w text).all w.fits = true := by
  rw [List.all_eq_true]
  intro v hv
  obtain ⟨t, -, ht⟩ := List.mem_filterMap.mp hv
  exact tokenWord_fits ht

/-- `m` is in the construction state over an image of Words (R35, R190). -/
def State.Fresh (m : State) : Prop :=
  m.cfg.wf = true ∧ m.image.all m.cfg.width.fits = true ∧ m = State.initial m.cfg m.image

/-- `new` and `debug` build such a machine from any text (R91, R190). -/
theorem fresh_of_construction {cfg : Config} {text : List Char} {m : State} (hcfg : cfg.wf = true)
    (hm : m = newMachine cfg text ∨ m = debugMachine cfg text) : m.Fresh := by
  rcases hm with rfl | rfl
  · exact ⟨hcfg, parse_fits cfg.width text, rfl⟩
  · exact ⟨hcfg, parse_fits cfg.width text, rfl⟩

theorem State.Fresh.inv {m : State} (h : m.Fresh) : m.Inv := by
  obtain ⟨hcfg, himage, hm⟩ := h
  rw [hm]
  exact inv_iff.mpr ⟨.initial hcfg himage, fun _ => rfl⟩

/-- Whatever a host does with a machine, it keeps the invariant, the parameters and the image. -/
theorem Reach.keeps {m s : State} (hm : m.Inv) (h : Reach m s) : s.Inv ∧ m.SameProgram s := by
  refine reach_induction (P := fun s => s.Inv ∧ m.SameProgram s) ⟨hm, rfl, rfl⟩ ?_ ?_ h
  · rintro s t ⟨hs, hp⟩ hstep
    exact ⟨stepKeepsInvariant s t hs hstep, hp.trans (step_sameProgram hstep)⟩
  · rintro s n o ⟨hs, hp⟩ ho
    exact ⟨hostOpKeepsInvariant s n o hs ho, hp.trans (hostOp_effect n o s).sameProgram⟩

/-- `reset()` of a healthy machine gives the construction state over its image (R35, R41, R192). -/
theorem resetState_eq_initial {s : State} (hs : s.Data) (hf : s.fault = none) :
    resetState s = State.initial s.cfg s.image := by
  have hov : backendReset s.cfg.backend s.image.length s.overlay = { cells := [], len := s.image.length } := by
    cases hb : s.cfg.backend with
    | dense => rfl
    | sparse => rw [← hs.overlay.sparse hb]; rfl
  rw [resetState, hov, hf]
  rfl

/-- After any history short of a fault, `reset()` gives the machine that was constructed (R192). -/
theorem hostOp_reset_of_reach {m s : State} (hm : m.Fresh) (h : Reach m s) (hf : s.fault = none)
    (hi : s.inRun = false) (n : Nat) : (hostOp n .reset s).2 = m := by
  obtain ⟨hs, hcfg, himage⟩ := h.keeps hm.inv
  obtain ⟨-, -, hinitial⟩ := hm
  rw [hostOp_reset_idle hf hi, resetState_eq_initial (inv_iff.mp hs).1 hf, hcfg, himage]
  exact hinitial.symm

/-- The backend and the construction by `new` or `debug` are not in the view (R190). -/
theorem view_of_construction {cfg : Config} {text : List Char} {m : State}
    (hm : m = newMachine cfg text ∨ m = debugMachine cfg text) :
    m.view = (State.initial cfg (parse cfg.width text)).view := by
  rcases hm with rfl | rfl <;> rfl

/-- Settles O41: both machines are as constructed again, so their sessions are sessions of one machine under the view,
and of one machine outright where they were built alike. -/
theorem resetThenSameCallsRepeat : Obligations.ResetThenSameCallsRepeat := by
  intro cfg b text m m' s s' n n' hcfg hm hm' hreach hf hi hreach' hf' hi' ops rs rs' t t' hsession hsession'
  rw [hostOp_reset_of_reach (fresh_of_construction hcfg hm) hreach hf hi] at hsession
  rw [hostOp_reset_of_reach (fresh_of_construction (cfg := { cfg with backend := b }) hcfg hm') hreach' hf' hi']
    at hsession'
  have hview : m'.view = m.view := (view_of_construction hm').trans (view_of_construction hm).symm
  obtain ⟨hrs, ht⟩ := session_unique hsession.view (hview ▸ hsession'.view)
  refine ⟨hrs, ?_, ht⟩
  rintro rfl
  exact (session_unique hsession hsession').2

end Sys2Proof.Machine
end

section
/-! SUPPORT. 70_reset_and_hazards.md section 1: construction (R190) and `reset()` (R192, R194). -/

namespace Sys2Proof.Machine

/-- `State.reset` is a construction state too, over the empty image. -/
theorem fresh_reset : State.reset.Fresh := ⟨by decide, rfl, rfl⟩

/-- Settles O35: `State.reset`, `new` and `debug` all give a construction state over an image of Words. -/
theorem constructionMeetsInvariant : Obligations.ConstructionMeetsInvariant := by
  refine ⟨fresh_reset.inv, fun cfg text hcfg => ⟨?_, ?_⟩⟩
  · exact (fresh_of_construction hcfg (.inl rfl)).inv
  · exact (fresh_of_construction hcfg (.inr rfl)).inv

/-- Settles O45: each value is the one `State.initial` writes, and `new` and `debug` build it from parameters that
differ in `TRACE` alone. -/
theorem constructionValues : Obligations.ConstructionValues :=
  fun _ _ => ⟨rfl, rfl, rfl, rfl, rfl, rfl, rfl, rfl, rfl, rfl, rfl, rfl, rfl⟩

/-- Settles O46: between two `run()` calls the state is `resetState s`, whose emptied overlay lets the image through
and whose `fault` is the `none` it had. -/
theorem resetRestoresConstructionValues : Obligations.ResetRestoresConstructionValues := by
  refine ⟨fun s n hfault => ?_, fun s n hf hi => ?_⟩
  · obtain ⟨r, hr⟩ := Option.ne_none_iff_exists'.mp hfault
    exact hostOp_faulted hr n .reset
  · rw [hostOp_reset_idle hf hi]
    have hword : ∀ a, (resetState s).wordAt a = s.image.getD a 0 := wordAt_of_cells_nil (resetState_cells s)
    exact ⟨rfl, rfl, rfl, rfl, hword, rfl, rfl, rfl, rfl, rfl, rfl, rfl, rfl, hf⟩

/-- Settles O48: a history keeps the parameters, the image and the invariant, from which `reset()` rebuilds the
construction state. -/
theorem resetEqualsFreshMachine : Obligations.ResetEqualsFreshMachine := by
  refine fun cfg text s n hcfg hf hi => ⟨fun hnew => ?_, fun hdebug => ?_⟩
  · exact hostOp_reset_of_reach (fresh_of_construction hcfg (.inl rfl)) hnew hf hi n
  · exact hostOp_reset_of_reach (fresh_of_construction hcfg (.inr rfl)) hdebug hf hi n

end Sys2Proof.Machine
end
